-- ==== Sys2Proof/Word.lean ====
section
/-! DEFINITION. The words of the machine: what the spec treats as bits (00_scope.md R10, R11; 30_encoding.md R63, R64). -/

namespace Sys2Proof

/-- An 8-bit value: a general register, a timer, a memory byte, the immediate `NN`. -/
abbrev Byte := BitVec 8

/-- A 16-bit value: an opcode, `PC`, `I`, a return address. -/
abbrev Word := BitVec 16

/-- A 4-bit slice of an opcode (00_scope.md R18). -/
abbrev Nibble := BitVec 4

/-- The 12-bit address field `NNN` (30_encoding.md R63). -/
abbrev Addr12 := BitVec 12

/-- The index of a general register, always a nibble of the opcode (10_state.md R21). -/
abbrev RegIx := BitVec 4

/-- A key code 0..15 (00_scope.md R7, R15). -/
abbrev Key := BitVec 4

end Sys2Proof
end

