-- ==== Sys2Proof/Syntax.lean ====
section
/-! DEFINITION. The instructions: one constructor per row of spec/opcode_table.json (30_encoding.md R66). -/

namespace Sys2Proof

/-- The 35 encodings of the canonical set, in the order of the table. `x` and `y` are register indices, `nn` an 8-bit
immediate, `nnn` a 12-bit address, `n` a sprite height (30_encoding.md R64). -/
inductive Instr where
  /-- 00E0: clear the display (R89). -/
  | cls
  /-- 00EE: return (R91). -/
  | ret
  /-- 0NNN: native call, not executed by this core (R99). -/
  | sys (nnn : Addr12)
  /-- 1NNN: jump (R92). -/
  | jp (nnn : Addr12)
  /-- 2NNN: call (R93). -/
  | call (nnn : Addr12)
  /-- 3XNN: skip if equal (R94). -/
  | seVxNn (x : RegIx) (nn : Byte)
  /-- 4XNN: skip if different (R95). -/
  | sneVxNn (x : RegIx) (nn : Byte)
  /-- 5XY0: skip if equal (R96). -/
  | seVxVy (x y : RegIx)
  /-- 6XNN: load immediate (R102). -/
  | ldVxNn (x : RegIx) (nn : Byte)
  /-- 7XNN: add immediate, no flag (R103). -/
  | addVxNn (x : RegIx) (nn : Byte)
  /-- 8XY0: copy (R104). -/
  | ldVxVy (x y : RegIx)
  /-- 8XY1 (R105). -/
  | orVxVy (x y : RegIx)
  /-- 8XY2 (R106). -/
  | andVxVy (x y : RegIx)
  /-- 8XY3 (R107). -/
  | xorVxVy (x y : RegIx)
  /-- 8XY4: add with carry (R108). -/
  | addVxVy (x y : RegIx)
  /-- 8XY5: subtract (R109). -/
  | sub (x y : RegIx)
  /-- 8XY6: shift right; `y` is ignored (R110). -/
  | shr (x y : RegIx)
  /-- 8XY7: reversed subtract (R111). -/
  | subn (x y : RegIx)
  /-- 8XYE: shift left; `y` is ignored (R112). -/
  | shl (x y : RegIx)
  /-- 9XY0: skip if different (R97). -/
  | sneVxVy (x y : RegIx)
  /-- ANNN: load `I` (R114). -/
  | ldINnn (nnn : Addr12)
  /-- BNNN: jump plus `V0` (R98). -/
  | jpV0 (nnn : Addr12)
  /-- CXNN: random byte under a mask (R113). -/
  | rnd (x : RegIx) (nn : Byte)
  /-- DXYN, N not 0: draw a sprite (R90). -/
  | drw (x y : RegIx) (n : Nibble)
  /-- EX9E: skip if key pressed (R121). -/
  | skp (x : RegIx)
  /-- EXA1: skip if key not pressed (R122). -/
  | sknp (x : RegIx)
  /-- FX07: read the delay timer (R123). -/
  | ldVxDt (x : RegIx)
  /-- FX0A: wait for a key (R126). -/
  | ldVxK (x : RegIx)
  /-- FX15: write the delay timer (R124). -/
  | ldDtVx (x : RegIx)
  /-- FX18: write the sound timer (R125). -/
  | ldStVx (x : RegIx)
  /-- FX1E: add to `I` (R115). -/
  | addIVx (x : RegIx)
  /-- FX29: point `I` at a glyph (R116). -/
  | ldFVx (x : RegIx)
  /-- FX33: store decimal digits (R117). -/
  | ldBVx (x : RegIx)
  /-- FX55: store `V0..Vx` (R118). -/
  | ldMemVx (x : RegIx)
  /-- FX65: load `V0..Vx` (R119). -/
  | ldVxMem (x : RegIx)
  deriving DecidableEq, Repr

end Sys2Proof
end

