-- ==== Sys2Proof/WellFormed.lean ====
section
/-! DEFINITION. Which instructions have an encoding of their own (30_encoding.md R65, R67). -/

namespace Sys2Proof

/-- `SYS` is every `0NNN` but CLS and RET (42_control_flow.md R99); a sprite has at least one row (30_encoding.md R67);
every other constructor is well formed for every operand, since an operand is exactly as wide as its field. -/
def Instr.wellFormed : Instr → Bool
  | .sys nnn => nnn != 0x0E0#12 && nnn != 0x0EE#12
  | .drw _ _ n => n != 0#4
  | .cls | .ret | .jp _ | .call _ | .seVxNn _ _ | .sneVxNn _ _ | .seVxVy _ _ | .ldVxNn _ _ | .addVxNn _ _
  | .ldVxVy _ _ | .orVxVy _ _ | .andVxVy _ _ | .xorVxVy _ _ | .addVxVy _ _ | .sub _ _ | .shr _ _ | .subn _ _
  | .shl _ _ | .sneVxVy _ _ | .ldINnn _ | .jpV0 _ | .rnd _ _ | .skp _ | .sknp _ | .ldVxDt _ | .ldVxK _ | .ldDtVx _
  | .ldStVx _ | .addIVx _ | .ldFVx _ | .ldBVx _ | .ldMemVx _ | .ldVxMem _ => true

end Sys2Proof
end

