-- ==== Sys2Proof/Decode.lean ====
section
/-! DEFINITION. The decoder, total on every word and every byte list, and the encoder (30_encoding.md R62..R67). -/

namespace Sys2Proof

/-- Why a word is illegal (30_encoding.md R67), or a byte list is too short to hold a word. -/
inductive DecodeReject where
  /-- `5XYN` with N not 0. -/
  | selector5
  /-- `8XYN` with N in 8..D or F. -/
  | selector8
  /-- `9XYN` with N not 0. -/
  | selector9
  /-- `DXY0`: a sprite of no rows. -/
  | zeroHeight
  /-- `EXNN` with NN neither 9E nor A1. -/
  | selectorE
  /-- `FXNN` with NN not one of the nine selectors. -/
  | selectorF
  /-- Fewer than two bytes. -/
  | truncated
  deriving DecidableEq, Repr

/-- `F = op[15:12]` (30_encoding.md R63). -/
def fieldF (op : Word) : Nibble := op.extractLsb' 12 4
/-- `X = op[11:8]`. -/
def fieldX (op : Word) : RegIx := op.extractLsb' 8 4
/-- `Y = op[7:4]`. -/
def fieldY (op : Word) : RegIx := op.extractLsb' 4 4
/-- `N = op[3:0]`. -/
def fieldN (op : Word) : Nibble := op.extractLsb' 0 4
/-- `NN = op[7:0]`. -/
def fieldNN (op : Word) : Byte := op.extractLsb' 0 8
/-- `NNN = op[11:0]`. -/
def fieldNNN (op : Word) : Addr12 := op.extractLsb' 0 12

/-- Family 0 is decoded by the full word (90_conflicts.md C8); all of it but CLS and RET is `SYS`. -/
def decode0 (op : Word) : Instr :=
  if op = 0x00E0#16 then .cls else if op = 0x00EE#16 then .ret else .sys (fieldNNN op)

/-- Family 8, selected by the low nibble (30_encoding.md R65). -/
def decode8 (op : Word) : Except DecodeReject Instr :=
  match fieldN op with
  | 0x0#4 => .ok (.ldVxVy (fieldX op) (fieldY op))
  | 0x1#4 => .ok (.orVxVy (fieldX op) (fieldY op))
  | 0x2#4 => .ok (.andVxVy (fieldX op) (fieldY op))
  | 0x3#4 => .ok (.xorVxVy (fieldX op) (fieldY op))
  | 0x4#4 => .ok (.addVxVy (fieldX op) (fieldY op))
  | 0x5#4 => .ok (.sub (fieldX op) (fieldY op))
  | 0x6#4 => .ok (.shr (fieldX op) (fieldY op))
  | 0x7#4 => .ok (.subn (fieldX op) (fieldY op))
  | 0xE#4 => .ok (.shl (fieldX op) (fieldY op))
  | _ => .error .selector8

/-- Family E, selected by the low byte (30_encoding.md R65). -/
def decodeE (op : Word) : Except DecodeReject Instr :=
  match fieldNN op with
  | 0x9E#8 => .ok (.skp (fieldX op))
  | 0xA1#8 => .ok (.sknp (fieldX op))
  | _ => .error .selectorE

/-- Family F, selected by the low byte (30_encoding.md R65). -/
def decodeF (op : Word) : Except DecodeReject Instr :=
  match fieldNN op with
  | 0x07#8 => .ok (.ldVxDt (fieldX op))
  | 0x0A#8 => .ok (.ldVxK (fieldX op))
  | 0x15#8 => .ok (.ldDtVx (fieldX op))
  | 0x18#8 => .ok (.ldStVx (fieldX op))
  | 0x1E#8 => .ok (.addIVx (fieldX op))
  | 0x29#8 => .ok (.ldFVx (fieldX op))
  | 0x33#8 => .ok (.ldBVx (fieldX op))
  | 0x55#8 => .ok (.ldMemVx (fieldX op))
  | 0x65#8 => .ok (.ldVxMem (fieldX op))
  | _ => .error .selectorF

/-- `Decode(op)` (30_encoding.md R65). `SYS` is decoded to its own constructor, whose meaning is the DecodeError that
42_control_flow.md R99 gives it (log entry 9). -/
def decodeWord (op : Word) : Except DecodeReject Instr :=
  match fieldF op with
  | 0x0#4 => .ok (decode0 op)
  | 0x1#4 => .ok (.jp (fieldNNN op))
  | 0x2#4 => .ok (.call (fieldNNN op))
  | 0x3#4 => .ok (.seVxNn (fieldX op) (fieldNN op))
  | 0x4#4 => .ok (.sneVxNn (fieldX op) (fieldNN op))
  | 0x5#4 => if fieldN op = 0#4 then .ok (.seVxVy (fieldX op) (fieldY op)) else .error .selector5
  | 0x6#4 => .ok (.ldVxNn (fieldX op) (fieldNN op))
  | 0x7#4 => .ok (.addVxNn (fieldX op) (fieldNN op))
  | 0x8#4 => decode8 op
  | 0x9#4 => if fieldN op = 0#4 then .ok (.sneVxVy (fieldX op) (fieldY op)) else .error .selector9
  | 0xA#4 => .ok (.ldINnn (fieldNNN op))
  | 0xB#4 => .ok (.jpV0 (fieldNNN op))
  | 0xC#4 => .ok (.rnd (fieldX op) (fieldNN op))
  | 0xD#4 => if fieldN op = 0#4 then .error .zeroHeight else .ok (.drw (fieldX op) (fieldY op) (fieldN op))
  | 0xE#4 => decodeE op
  | _ => decodeF op

/-- The first two bytes as one big-endian word (20_memory.md R51). -/
def wordOfBytes (hi lo : Byte) : Word := hi ++ lo

/-- Decode the instruction at the head of a byte list, with the rest of the list. -/
def decodeBytes : List Byte → Except DecodeReject (Instr × List Byte)
  | hi :: lo :: rest =>
    match decodeWord (wordOfBytes hi lo) with
    | .ok i => .ok (i, rest)
    | .error e => .error e
  | _ => .error .truncated

/-- The word `FXYN` of four nibbles. -/
def wordXYN (f : Nibble) (x y : RegIx) (n : Nibble) : Word := f ++ x ++ y ++ n
/-- The word `FXNN`. -/
def wordXNN (f : Nibble) (x : RegIx) (nn : Byte) : Word := f ++ x ++ nn
/-- The word `FNNN`. -/
def wordNNN (f : Nibble) (nnn : Addr12) : Word := f ++ nnn

/-- The word of an instruction, from the patterns of 30_encoding.md R66. -/
def encode : Instr → Word
  | .cls => 0x00E0#16
  | .ret => 0x00EE#16
  | .sys nnn => wordNNN 0x0 nnn
  | .jp nnn => wordNNN 0x1 nnn
  | .call nnn => wordNNN 0x2 nnn
  | .seVxNn x nn => wordXNN 0x3 x nn
  | .sneVxNn x nn => wordXNN 0x4 x nn
  | .seVxVy x y => wordXYN 0x5 x y 0x0
  | .ldVxNn x nn => wordXNN 0x6 x nn
  | .addVxNn x nn => wordXNN 0x7 x nn
  | .ldVxVy x y => wordXYN 0x8 x y 0x0
  | .orVxVy x y => wordXYN 0x8 x y 0x1
  | .andVxVy x y => wordXYN 0x8 x y 0x2
  | .xorVxVy x y => wordXYN 0x8 x y 0x3
  | .addVxVy x y => wordXYN 0x8 x y 0x4
  | .sub x y => wordXYN 0x8 x y 0x5
  | .shr x y => wordXYN 0x8 x y 0x6
  | .subn x y => wordXYN 0x8 x y 0x7
  | .shl x y => wordXYN 0x8 x y 0xE
  | .sneVxVy x y => wordXYN 0x9 x y 0x0
  | .ldINnn nnn => wordNNN 0xA nnn
  | .jpV0 nnn => wordNNN 0xB nnn
  | .rnd x nn => wordXNN 0xC x nn
  | .drw x y n => wordXYN 0xD x y n
  | .skp x => wordXNN 0xE x 0x9E
  | .sknp x => wordXNN 0xE x 0xA1
  | .ldVxDt x => wordXNN 0xF x 0x07
  | .ldVxK x => wordXNN 0xF x 0x0A
  | .ldDtVx x => wordXNN 0xF x 0x15
  | .ldStVx x => wordXNN 0xF x 0x18
  | .addIVx x => wordXNN 0xF x 0x1E
  | .ldFVx x => wordXNN 0xF x 0x29
  | .ldBVx x => wordXNN 0xF x 0x33
  | .ldMemVx x => wordXNN 0xF x 0x55
  | .ldVxMem x => wordXNN 0xF x 0x65

/-- An opcode-table word as the one 16-bit word of an instruction: the table numbers bit 0 as the word's least
significant bit, and every bit above `nbits` is 0. -/
def tableWord (nbits w : Nat) : Word := BitVec.ofNat 16 (w % 2 ^ nbits)

/-- The word's bytes as memory holds them, most significant first (20_memory.md R51). -/
def bytesOfWord (op : Word) : List Byte := [op.extractLsb' 8 8, op.extractLsb' 0 8]

/-- What the decoder reads from an instruction of the opcode table whose bits are `w`. -/
def decodeTableWord (nbits w : Nat) : Option Instr :=
  match decodeBytes (bytesOfWord (tableWord nbits w)) with
  | .ok (i, _) => some i
  | .error _ => none

end Sys2Proof
end

