-- ==== Sys2Proof/Config.lean ====
section
/-! DEFINITION. The free values the environment supplies (00_scope.md R15). The parameters `FONT`, `FB_INIT` and
`REGS_ZERO_AT_RESET`, which a model takes as arguments (00_scope.md R7), are the field `params` of State; the fixed numbers
of R7 stand in the definitions that use them, as the spec writes them. -/

namespace Sys2Proof.Config

/-- FREE VALUE. The byte `RandomByte()` answers when the environment has listed none, by the number of the question:
a fresh draw under no law (00_scope.md R15, 43_register_alu.md R113, log entry 5). -/
opaque randomByte : Nat → Byte

/-- FREE VALUE. What `KeyPressed(k)` answers when the environment has listed nothing, by the number of the question and
the key (00_scope.md R15, 45_keys_timers.md R121, log entry 5). -/
opaque keyPressed : Nat → Key → Bool

/-- FREE VALUE. What `PollKey()` answers when the environment has listed nothing, by the number of the question
(00_scope.md R15, 40_execution_cycle.md R81, log entry 5). -/
opaque pollKey : Nat → Option Key

end Sys2Proof.Config
end

