-- ==== Sys2Proof/Machine/Font.lean ====
section
/-! DEFINITION. The default of the parameter `FONT` (20_memory.md R44). -/

namespace Sys2Proof.Machine

/-- Glyphs 0..3, five rows each, bit 7 the leftmost pixel (20_memory.md R44). -/
def glyphs0To3 : Vector Byte 20 :=
  #v[0xF0, 0x90, 0x90, 0x90, 0xF0,  0x20, 0x60, 0x20, 0x20, 0x70,
     0xF0, 0x10, 0xF0, 0x80, 0xF0,  0xF0, 0x10, 0xF0, 0x10, 0xF0]

/-- Glyphs 4..7. -/
def glyphs4To7 : Vector Byte 20 :=
  #v[0x90, 0x90, 0xF0, 0x10, 0x10,  0xF0, 0x80, 0xF0, 0x10, 0xF0,
     0xF0, 0x80, 0xF0, 0x90, 0xF0,  0xF0, 0x10, 0x20, 0x40, 0x40]

/-- Glyphs 8..B. -/
def glyphs8ToB : Vector Byte 20 :=
  #v[0xF0, 0x90, 0xF0, 0x90, 0xF0,  0xF0, 0x90, 0xF0, 0x10, 0xF0,
     0xF0, 0x90, 0xF0, 0x90, 0x90,  0xE0, 0x90, 0xE0, 0x90, 0xE0]

/-- Glyphs C..F. -/
def glyphsCToF : Vector Byte 20 :=
  #v[0xF0, 0x80, 0x80, 0x80, 0xF0,  0xE0, 0x90, 0x90, 0x90, 0xE0,
     0xF0, 0x80, 0xF0, 0x80, 0xF0,  0xF0, 0x80, 0xF0, 0x80, 0x80]

/-- The 80 default font bytes (20_memory.md R44: the parameter's default, from the spec's general knowledge). -/
def defaultFont : Vector Byte 80 := (glyphs0To3 ++ glyphs4To7) ++ (glyphs8ToB ++ glyphsCToF)

end Sys2Proof.Machine
end

