-- ==== Sys2Proof/Machine/State.lean ====
section
/-! DEFINITION. The architectural state (10_state.md R20), the reasons a step stops, and the state after reset. -/

namespace Sys2Proof.Machine

/-- A general register or `I`: a value of its width or the mark *uninitialised*, which is the spec's own state
(10_state.md R22). -/
inductive RegCell (w : Nat) where
  | uninitialised
  | holds (value : BitVec w)
  deriving DecidableEq, Repr

/-- The fault codes of 60_exceptions.md R130. -/
inductive FaultCode where
  | loadError
  | decodeError
  | stackError
  | pcOutOfRange
  | memoryAccessFault
  | uninitialisedRead
  | keyIndexOutOfRange
  deriving DecidableEq, Repr

/-- A data access reads or writes (20_memory.md R49). -/
inductive AccessKind where
  | read
  | write
  deriving DecidableEq, Repr

/-- The registers an `UninitialisedRead` can name (60_exceptions.md R131). -/
inductive RegName where
  | v (x : RegIx)
  | i
  deriving DecidableEq, Repr

/-- A fault's own datum, the `info` column of 60_exceptions.md R130. -/
inductive FaultInfo where
  | none
  | push
  | pop
  | pcValue (a : Word)
  | access (address : Nat) (kind : AccessKind)
  | register (r : RegName)
  | keyValue (k : Byte)
  deriving DecidableEq, Repr

/-- What an operation raises: the fault and its datum (00_scope.md R14). -/
structure Trap where
  code : FaultCode
  info : FaultInfo
  deriving DecidableEq, Repr

/-- The fault record (10_state.md R36). -/
structure FaultRecord where
  code : FaultCode
  pc : Word
  opcode : Option Word
  info : FaultInfo
  deriving DecidableEq, Repr

/-- The run state of the cycle state machine (10_state.md R35). -/
inductive RunState where
  | unloaded
  | running
  | waitKey (x : RegIx)
  | faulted (rec : FaultRecord)
  | stopped
  deriving DecidableEq, Repr

/-- `FB`: 32 rows of 64 pixels; row `y` holds the pixels `FB[0][y]` .. `FB[63][y]` (10_state.md R33, 00_scope.md R16). -/
abbrev Frame := Vector (Vector Bool 64) 32

/-- A frame with every pixel off. -/
def Frame.allOff : Frame := Vector.replicate 32 (Vector.replicate 64 false)

/-- `M`, as the list of the addresses that differ from what an unlisted address reads as (20_memory.md R41). -/
abbrev Memory := List Host.Cell

/-- The parameters a model takes as arguments (00_scope.md R7). No step changes them. -/
structure Params where
  /-- `FONT` (20_memory.md R44). -/
  font : Vector Byte 80
  /-- `FB_INIT`, the framebuffer at power-on (10_state.md R33). -/
  fbInit : Frame
  /-- `REGS_ZERO_AT_RESET` (10_state.md R22). -/
  regsZeroAtReset : Bool
  deriving DecidableEq, Repr

/-- The register snapshot handed over at `Present` (60_exceptions.md R143). -/
structure Snapshot where
  v : Vector (RegCell 8) 16
  i : RegCell 16
  pc : Word
  sp : Byte
  dt : Byte
  st : Byte
  run : RunState
  deriving DecidableEq, Repr

/-- The steps of the machine (40_execution_cycle.md R72). `load rom readable` is `Load(rom)`; `readable` is false when the
host reports the ROM source unreadable (60_exceptions.md R132). -/
inductive MachineStep where
  | cycle
  | tick
  | present
  | shutdown
  | load (rom : List Byte) (readable : Bool)
  deriving DecidableEq, Repr

/-- What the core hands the host: a frame at `Present` (60_exceptions.md R140), or `LoadError(L)` (60_exceptions.md R132). -/
inductive HostReport where
  | frame (fb : Frame) (dirty : Bool) (regs : Snapshot)
  | loadError (romLength : Nat)
  deriving DecidableEq, Repr

/-- The environment's side of the interface: the MODEL'S OWN fields, no state of the core (10_state.md R39; log entries 4 to 6). -/
structure Env where
  /-- The coming steps, oldest first; when it is empty the next step is a `Cycle` (log entry 4). -/
  schedule : List MachineStep
  /-- The coming answers of `RandomByte()`, oldest first (log entry 5). -/
  randomBytes : List Byte
  /-- The coming answers of `KeyPressed(k)`, oldest first (log entry 5). -/
  keyAnswers : List Bool
  /-- The coming answers of `PollKey()`, oldest first (log entry 5). -/
  pollAnswers : List (Option Key)
  /-- How many questions were asked so far: the argument of Config's free values (log entry 5). -/
  asked : Nat
  /-- What the host was handed so far, oldest first (log entry 6). -/
  received : List HostReport
  deriving DecidableEq, Repr

/-- The architectural state (10_state.md R20), with the parameters and the environment's side. `SP` is the length of
`stack` (10_state.md R28). -/
structure State where
  mem : Memory
  v : Vector (RegCell 8) 16
  i : RegCell 16
  pc : Word
  stack : List Word
  dt : Byte
  st : Byte
  fb : Frame
  dirty : Bool
  run : RunState
  params : Params
  env : Env
  deriving DecidableEq, Repr

/-- Why a step does not exist: a `Cycle` that the environment asks for in a run state that has none
(40_execution_cycle.md R73). Raised by `cycle` only, never by an instruction. Each is SAFE: the spec gives no step there. -/
inductive Fault where
  /-- No ROM was loaded (10_state.md R35). Safe. -/
  | unloaded
  /-- A fatal error occurred; its record (60_exceptions.md R129). Safe. -/
  | faulted (rec : FaultRecord)
  /-- The host stopped the run (60_exceptions.md R141). Safe. -/
  | stopped
  deriving DecidableEq, Repr

/-- Why an instruction has no meaning in the model. -/
inductive Refusal where
  /-- An instruction the model leaves out. No arm of `exec` answers it now. Safe. -/
  | notModelled (mnemonic : String)
  deriving DecidableEq, Repr

/-- The parameters of `State.reset`: the spec's defaults for `FONT` and `FB_INIT`, and `REGS_ZERO_AT_RESET` true, so that
every register holds the value the spec gives it then (00_scope.md R7; DESIGN CHOICE, log entry 2). -/
def Params.ofReset : Params := { font := defaultFont, fbInit := Frame.allOff, regsZeroAtReset := true }

/-- The environment's side at reset: nothing scheduled, answered or received (DESIGN CHOICE, log entries 4 to 6). -/
def Env.empty : Env :=
  { schedule := [], randomBytes := [], keyAnswers := [], pollAnswers := [], asked := 0, received := [] }

/-- The machine right after reset: `Load` of the empty ROM at power-on (70_reset_and_hazards.md R146, R147, R148; log
entry 1). -/
def State.reset : State :=
  { mem := []
    v := Vector.replicate 16 (.holds 0)
    i := .holds 0
    pc := 0x200
    stack := []
    dt := 0
    st := 0
    fb := Frame.allOff
    dirty := false
    run := .running
    params := Params.ofReset
    env := Env.empty }

end Sys2Proof.Machine
end

