-- ==== Sys2Proof/Machine/Ops.lean ====
section
/-! DEFINITION. The named operations over memory, registers and the framebuffer, the questions put to the environment,
taking a fault, and Load, which alone leaves one. -/

namespace Sys2Proof.Machine

/-! ### Memory (20_memory.md) -/

/-- What an unlisted address reads as: the contents Load gives memory with the default font and no ROM (10_state.md R40,
70_reset_and_hazards.md R147; log entry 8). -/
def Memory.unlisted (a : Nat) : Byte := if h : a < 80 then defaultFont[a] else 0

/-- `M[a]`, with no check (00_scope.md R13). -/
def Memory.byteAt : Memory → Nat → Byte
  | [], a => Memory.unlisted a
  | (b, v) :: rest, a => if a = b then v else Memory.byteAt rest a

/-- A cell put before a list, unless it says what an unlisted address says anyway. -/
def Memory.cellThen (a : Nat) (v : Byte) (rest : Memory) : Memory :=
  if v = Memory.unlisted a then rest else (a, v) :: rest

/-- `M[a] <- v`, with no check, in the canonical form. -/
def Memory.put : Memory → Nat → Byte → Memory
  | [], a, v => Memory.cellThen a v []
  | (b, w) :: rest, a, v =>
    if a < b then Memory.cellThen a v ((b, w) :: rest)
    else if a = b then Memory.cellThen a v rest
    else (b, w) :: Memory.put rest a v

/-- `M[a + j] <- bytes[j]` for every `j`, with no check (the copies of Load, 70_reset_and_hazards.md R147). -/
def Memory.putAll (a : Nat) : List Byte → Memory → Memory
  | [], m => m
  | b :: bs, m => Memory.put (Memory.putAll (a + 1) bs m) a b

/-- The canonical form: addresses strictly rising, inside the 4096 bytes, and no cell equal to what an unlisted address
reads as. -/
abbrev Memory.wf (m : Memory) : Prop :=
  m.Pairwise (fun c d => c.1 < d.1) ∧ ∀ c ∈ m, c.1 < 4096 ∧ c.2 ≠ Memory.unlisted c.1

/-- `DataAccessible(a)` (20_memory.md R49): the font area, the program region, the display-scratch region. -/
abbrev dataAccessible (a : Nat) : Prop := a < 80 ∨ (512 ≤ a ∧ a < 3760) ∨ (3856 ≤ a ∧ a < 4096)

/-- The `MemoryAccessFault` of an access (60_exceptions.md R130). -/
def accessTrap (a : Nat) (k : AccessKind) : Trap := { code := .memoryAccessFault, info := .access a k }

/-- `MemRead(a, 1)` (20_memory.md R49). -/
def memRead (m : Memory) (a : Nat) : Except Trap Byte :=
  if dataAccessible a then .ok (Memory.byteAt m a) else .error (accessTrap a .read)

/-- `MemWrite(a, 1, v)` (20_memory.md R49). -/
def memWrite (m : Memory) (a : Nat) (v : Byte) : Except Trap Memory :=
  if dataAccessible a then .ok (Memory.put m a v) else .error (accessTrap a .write)

/-- `MemRead(a + k, 1)` for `k` from 0 to `n - 1`, lowest offset first (20_memory.md R50). -/
def readBytes (m : Memory) (a : Nat) : Nat → Except Trap (List Byte)
  | 0 => .ok []
  | n + 1 => do
    let b ← memRead m a
    let bs ← readBytes m (a + 1) n
    return b :: bs

/-- `MemWrite(a + k, 1, bytes[k])` for every `k`, lowest offset first (20_memory.md R50). -/
def writeBytes (m : Memory) (a : Nat) : List Byte → Except Trap Memory
  | [] => .ok m
  | b :: bs => do
    let m' ← memWrite m a b
    writeBytes m' (a + 1) bs

/-! ### One field at a time -/

/-- `PC <- a`. -/
def State.setPc (s : State) (a : Word) : State := { s with pc := a }
/-- `M` replaced. -/
def State.setMem (s : State) (m : Memory) : State := { s with mem := m }
/-- `V[x]`: the register's cell (10_state.md R21, R22). -/
def State.getV (s : State) (x : RegIx) : RegCell 8 := s.v[x.toNat]'x.isLt
/-- `V[x] <- b`: a write makes the register initialised (10_state.md R22). -/
def State.setV (s : State) (x : RegIx) (b : Byte) : State := { s with v := s.v.set x.toNat (.holds b) x.isLt }
/-- `I <- a`: a write makes `I` initialised (10_state.md R22). -/
def State.setI (s : State) (a : Word) : State := { s with i := .holds a }
/-- The call stack replaced. -/
def State.setStack (s : State) (as : List Word) : State := { s with stack := as }
/-- `DT <- b`. -/
def State.setDt (s : State) (b : Byte) : State := { s with dt := b }
/-- `ST <- b`. -/
def State.setSt (s : State) (b : Byte) : State := { s with st := b }
/-- The framebuffer replaced. -/
def State.setFb (s : State) (f : Frame) : State := { s with fb := f }
/-- `dirty <- d`. -/
def State.setDirty (s : State) (d : Bool) : State := { s with dirty := d }
/-- `run <- r`. -/
def State.setRun (s : State) (r : RunState) : State := { s with run := r }
/-- The environment's side replaced. -/
def State.setEnv (s : State) (e : Env) : State := { s with env := e }

/-- `SP = length(Stack)`, 8 bits (10_state.md R28). -/
def State.sp (s : State) : Byte := BitVec.ofNat 8 s.stack.length

/-- `PC <- pc0 + 2`, after every instruction that is not a control-flow instruction (40_execution_cycle.md R79; log entry 10
for a `PC` no fetch reaches). -/
def State.advance (s : State) : State := s.setPc (s.pc + 2)

/-- `V[k + j] <- bytes[j]` for every `j` (44_index_memory.md R119). -/
def State.setVs (s : State) (k : Nat) : List Byte → State
  | [] => s
  | b :: bs => (s.setV (BitVec.ofNat 4 k) b).setVs (k + 1) bs

/-- The register snapshot of the dump hook (60_exceptions.md R143). -/
def State.snapshot (s : State) : Snapshot :=
  { v := s.v, i := s.i, pc := s.pc, sp := s.sp, dt := s.dt, st := s.st, run := s.run }

/-! ### The environment (00_scope.md R15) -/

/-- `RandomByte()`: the answer and the state after the question. -/
def askRandomByte (s : State) : Byte × State :=
  match s.env.randomBytes with
  | [] => (Config.randomByte s.env.asked, s.setEnv { s.env with asked := s.env.asked + 1 })
  | b :: bs => (b, s.setEnv { s.env with asked := s.env.asked + 1, randomBytes := bs })

/-- `KeyPressed(k)`: the answer and the state after the question. -/
def askKeyPressed (k : Key) (s : State) : Bool × State :=
  match s.env.keyAnswers with
  | [] => (Config.keyPressed s.env.asked k, s.setEnv { s.env with asked := s.env.asked + 1 })
  | b :: bs => (b, s.setEnv { s.env with asked := s.env.asked + 1, keyAnswers := bs })

/-- `PollKey()`: the answer and the state after the question. -/
def askPollKey (s : State) : Option Key × State :=
  match s.env.pollAnswers with
  | [] => (Config.pollKey s.env.asked, s.setEnv { s.env with asked := s.env.asked + 1 })
  | k :: ks => (k, s.setEnv { s.env with asked := s.env.asked + 1, pollAnswers := ks })

/-- The host is handed a report (60_exceptions.md R132, R140; log entry 6). -/
def State.report (s : State) (r : HostReport) : State :=
  s.setEnv { s.env with received := s.env.received ++ [r] }

/-! ### Fetch (40_execution_cycle.md R75, R76) -/

/-- `FetchAllowed(a)`: both bytes lie in the program region (40_execution_cycle.md R76). -/
abbrev fetchAllowed (a : Word) : Prop := 512 ≤ a.toNat ∧ a.toNat + 1 ≤ 3759

/-- The big-endian word at `a` (40_execution_cycle.md R75). -/
def wordAt (m : Memory) (a : Word) : Word :=
  wordOfBytes (Memory.byteAt m a.toNat) (Memory.byteAt m (a.toNat + 1))

/-- `FetchWord(PC)` (40_execution_cycle.md R75). -/
def fetchWord (s : State) : Except Trap Word :=
  if fetchAllowed s.pc then .ok (wordAt s.mem s.pc)
  else .error { code := .pcOutOfRange, info := .pcValue s.pc }

/-- The address an instruction is placed at, to be fetched next: `PC` where a fetch is allowed, else the entry point. -/
def placementAddress (s : State) : Word := if fetchAllowed s.pc then s.pc else 0x200

/-- An instruction's word placed where the next step fetches it: a running machine whose next step is a `Cycle`. -/
def placeInstruction (s : State) (op : Word) : State :=
  let a := placementAddress s
  ((((s.setMem (Memory.putAll a.toNat (bytesOfWord op) s.mem)).setPc a).setRun .running).setEnv
    { s.env with schedule := [] })

/-! ### Taking a fault, and leaving it -/

/-- The number of a fault code (60_exceptions.md R130). -/
def FaultCode.number : FaultCode → Nat
  | .loadError => 1
  | .decodeError => 2
  | .stackError => 3
  | .pcOutOfRange => 4
  | .memoryAccessFault => 5
  | .uninitialisedRead => 6
  | .keyIndexOutOfRange => 7

/-- A cycle that raises a fault: `run <- Faulted(rec)` and nothing else (40_execution_cycle.md R82, 60_exceptions.md R128).
`opcode` is the fetched word, or `none` when the fetch itself faulted (10_state.md R36). -/
def takeFault (opcode : Option Word) (t : Trap) (s : State) : State :=
  s.setRun (.faulted { code := t.code, pc := s.pc, opcode := opcode, info := t.info })

/-- The fault of an illegal word (60_exceptions.md R130). -/
def decodeTrap : Trap := { code := .decodeError, info := .none }

/-- The end of an instruction: the state its pseudocode reached, or, if a line of it raised a fault, the state before it
with the fault taken (40_execution_cycle.md R82). The fetched word is the instruction's encoding (log entry 11). -/
def conclude (i : Instr) (s : State) (r : Except Trap State) : Host.Outcome State Fault Refusal :=
  .next (match r with
    | .ok t => t
    | .error e => takeFault (some (encode i)) e s)

/-- What Load leaves in every register (70_reset_and_hazards.md R147, 10_state.md R22). -/
def cellAfterLoad (w : Nat) (p : Params) : RegCell w := if p.regsZeroAtReset then .holds 0 else .uninitialised

/-- Memory after `Load(rom)`: zeros, the font at 0, the ROM at 512 (70_reset_and_hazards.md R147). -/
def loadedMemory (p : Params) (rom : List Byte) : Memory :=
  Memory.putAll 512 rom (Memory.putAll 0 p.font.toList [])

/-- `Load(rom)` (70_reset_and_hazards.md R147): the reset of the core, and the only way out of `Faulted` and `Stopped`
(60_exceptions.md R129, R135). A ROM that is too long or unreadable is reported and changes nothing (60_exceptions.md R132). -/
def load (rom : List Byte) (readable : Bool) (s : State) : State :=
  if readable = false ∨ 3248 < rom.length then s.report (.loadError rom.length)
  else
    { s with
      mem := loadedMemory s.params rom
      pc := 512
      stack := []
      dt := 0
      st := 0
      v := Vector.replicate 16 (cellAfterLoad 8 s.params)
      i := cellAfterLoad 16 s.params
      run := .running }

end Sys2Proof.Machine
end

