-- ==== Sys2Proof/Machine/Operands.lean ====
section
/-! DEFINITION. The operand forms: reading registers with their marks, the address fields, skips, and register blocks. -/

namespace Sys2Proof.Machine

/-- Register 15, the flag register (10_state.md R24). -/
def vf : RegIx := 15#4

/-- The `UninitialisedRead` of a register (60_exceptions.md R131). -/
def uninitTrap (r : RegName) : Trap := { code := .uninitialisedRead, info := .register r }

/-- Reading `V[x]` as an operand (00_scope.md R12). -/
def readV (x : RegIx) (s : State) : Except Trap Byte :=
  match s.getV x with
  | .holds b => .ok b
  | .uninitialised => .error (uninitTrap (.v x))

/-- Reading `I` as an operand (00_scope.md R12). -/
def readI (s : State) : Except Trap Word :=
  match s.i with
  | .holds a => .ok a
  | .uninitialised => .error (uninitTrap .i)

/-- Reading `V[k]` .. `V[k + n - 1]`, lowest first (44_index_memory.md R118). -/
def readVs (s : State) (k : Nat) : Nat → Except Trap (List Byte)
  | 0 => .ok []
  | n + 1 => do
    let b ← readV (BitVec.ofNat 4 k) s
    let bs ← readVs s (k + 1) n
    return b :: bs

/-- How many registers a block move names: `V[0]..V[X]` (44_index_memory.md R118). -/
def blockSize (x : RegIx) : Nat := x.toNat + 1

/-- `NNN` as an address, zero-extended to 16 bits (30_encoding.md R64). -/
def addrOf (nnn : Addr12) : Word := nnn.setWidth 16

/-- A conditional skip: `PC + 4` when it skips, `PC + 2` when it does not (40_execution_cycle.md R78). -/
def State.skipIf (s : State) (c : Bool) : State := s.setPc (if c then s.pc + 4 else s.pc + 2)

/-- A key operand: a code of 16 or more is no key (45_keys_timers.md R120). -/
def keyOf (b : Byte) : Except Trap Key :=
  if 15 < b.toNat then .error { code := .keyIndexOutOfRange, info := .keyValue b } else .ok (b.setWidth 4)

/-- The address of the glyph of a byte's low nibble: `sprite_address(g) = g * 5` (44_index_memory.md R116). -/
def glyphAddress (b : Byte) : Word := BitVec.ofNat 16 ((b.toNat % 16) * 5)

end Sys2Proof.Machine
end

