-- ==== Sys2Proof/Machine/ControlFlow.lean ====
section
/-! DEFINITION. The control-flow instructions of 42_control_flow.md: each sets PC itself (40_execution_cycle.md R78, R79). -/

namespace Sys2Proof.Machine

/-- The `StackError` (60_exceptions.md R130), with `push` or `pop`. -/
def stackTrap (i : FaultInfo) : Trap := { code := .stackError, info := i }

/-- RET (42_control_flow.md R91). -/
def execRet (s : State) : Host.Outcome State Fault Refusal :=
  conclude .ret s (
    match s.stack.getLast? with
    | none => .error (stackTrap .pop)
    | some a => .ok ((s.setStack s.stack.dropLast).setPc a))

/-- SYS: never executed, a DecodeError (42_control_flow.md R99). -/
def execSys (nnn : Addr12) (s : State) : Host.Outcome State Fault Refusal :=
  conclude (.sys nnn) s (.error decodeTrap)

/-- JP (42_control_flow.md R92). -/
def execJp (nnn : Addr12) (s : State) : Host.Outcome State Fault Refusal :=
  conclude (.jp nnn) s (.ok (s.setPc (addrOf nnn)))

/-- CALL (42_control_flow.md R93). -/
def execCall (nnn : Addr12) (s : State) : Host.Outcome State Fault Refusal :=
  conclude (.call nnn) s (
    if 48 ≤ s.stack.length then .error (stackTrap .push)
    else .ok ((s.setStack (s.stack ++ [s.pc + 2])).setPc (addrOf nnn)))

/-- SE Vx, byte (42_control_flow.md R94). -/
def execSeVxNn (x : RegIx) (nn : Byte) (s : State) : Host.Outcome State Fault Refusal :=
  conclude (.seVxNn x nn) s (do
    let a ← readV x s
    return s.skipIf (a == nn))

/-- SNE Vx, byte (42_control_flow.md R95). -/
def execSneVxNn (x : RegIx) (nn : Byte) (s : State) : Host.Outcome State Fault Refusal :=
  conclude (.sneVxNn x nn) s (do
    let a ← readV x s
    return s.skipIf (a != nn))

/-- SE Vx, Vy (42_control_flow.md R96). -/
def execSeVxVy (x y : RegIx) (s : State) : Host.Outcome State Fault Refusal :=
  conclude (.seVxVy x y) s (do
    let a ← readV x s
    let b ← readV y s
    return s.skipIf (a == b))

/-- SNE Vx, Vy (42_control_flow.md R97). -/
def execSneVxVy (x y : RegIx) (s : State) : Host.Outcome State Fault Refusal :=
  conclude (.sneVxVy x y) s (do
    let a ← readV x s
    let b ← readV y s
    return s.skipIf (a != b))

/-- JP V0: the sum is not reduced (42_control_flow.md R98). -/
def execJpV0 (nnn : Addr12) (s : State) : Host.Outcome State Fault Refusal :=
  conclude (.jpV0 nnn) s (do
    let a ← readV 0#4 s
    return s.setPc (BitVec.ofNat 16 (nnn.toNat + a.toNat)))

end Sys2Proof.Machine
end

