-- ==== Sys2Proof/Machine/Flags.lean ====
section
/-! DEFINITION. The 8-bit results and the flags of VF (43_register_alu.md R100, R101). -/

namespace Sys2Proof.Machine

/-- `(a + b) mod 256`. -/
def sumByte (a b : Byte) : Byte := BitVec.ofNat 8 ((a.toNat + b.toNat) % 256)

/-- The carry: 1 exactly when the unsigned sum exceeds 255 (43_register_alu.md R100, R108). -/
def carryFlag (a b : Byte) : Byte := if 255 < a.toNat + b.toNat then 1 else 0

/-- `(a - b) mod 256`: `a + 256 - b` when `a < b` (43_register_alu.md R109). -/
def differenceByte (a b : Byte) : Byte := BitVec.ofNat 8 ((a.toNat + 256 - b.toNat) % 256)

/-- No borrow: 1 exactly when the minuend `a` is at least the subtrahend `b` (43_register_alu.md R100, R109). -/
def noBorrowFlag (a b : Byte) : Byte := if b.toNat ≤ a.toNat then 1 else 0

/-- The least significant bit, which a right shift puts in VF (43_register_alu.md R110). -/
def lsbFlag (a : Byte) : Byte := a &&& 1

/-- The most significant bit, which a left shift puts in VF (43_register_alu.md R112). -/
def msbFlag (a : Byte) : Byte := a >>> 7

/-- The result to `V[x]`, then the flag to VF: with `x = 15` the flag survives (43_register_alu.md R101). -/
def State.setResultAndFlag (s : State) (x : RegIx) (result flag : Byte) : State := (s.setV x result).setV vf flag

end Sys2Proof.Machine
end

