-- ==== Sys2Proof/Machine/Sprite.lean ====
section
/-! DEFINITION. The framebuffer's pixels and the drawing of a sprite (41_display.md R85..R88, R90). -/

namespace Sys2Proof.Machine

/-- `FB[x][y]` (00_scope.md R16). -/
def Frame.pixel (f : Frame) (x : Fin 64) (y : Fin 32) : Bool := (f.get y).get x

/-- `FB[x][y] <- b`. -/
def Frame.setPixel (f : Frame) (x : Fin 64) (y : Fin 32) (b : Bool) : Frame := f.set y ((f.get y).set x b)

/-- A column number wrapped modulo 64 (41_display.md R86). -/
def wrapX (n : Nat) : Fin 64 := Fin.ofNat 64 n

/-- A row number wrapped modulo 32 (41_display.md R86). -/
def wrapY (n : Nat) : Fin 32 := Fin.ofNat 32 n

/-- A draw under way: the frame so far, whether a pixel went from on to off, whether any pixel changed (41_display.md R90). -/
structure Drawing where
  fb : Frame
  collision : Bool
  changed : Bool
  deriving DecidableEq, Repr

/-- A draw that has not begun. -/
def Drawing.start (f : Frame) : Drawing := { fb := f, collision := false, changed := false }

/-- One sprite bit that is 1: collision if the pixel was on, and the pixel toggled (41_display.md R87, R90). -/
def Drawing.toggle (d : Drawing) (x : Fin 64) (y : Fin 32) : Drawing :=
  { fb := d.fb.setPixel x y (!d.fb.pixel x y)
    collision := d.collision || d.fb.pixel x y
    changed := true }

/-- The sprite bit of column offset `c` of a row, most significant bit leftmost (41_display.md R85). -/
def rowBit (row : Byte) (c : Nat) : Bool := row.getLsbD (7 - c)

/-- One sprite row at row `y`, its 8 columns from `x0`, wrapped modulo 64 (41_display.md R86). -/
def Drawing.row (d : Drawing) (x0 : Nat) (y : Fin 32) (row : Byte) : Drawing :=
  (List.range 8).foldl (fun d c => if rowBit row c then d.toggle (wrapX (x0 + c)) y else d) d

/-- The sprite rows from row `y` down, wrapped modulo 32 (41_display.md R86). -/
def Drawing.rows (d : Drawing) (x0 y : Nat) : List Byte → Drawing
  | [] => d
  | row :: rest => (d.row x0 (wrapY y) row).rows x0 (y + 1) rest

/-- The sprite of the given rows drawn at `(x, y)`, the coordinates wrapped modulo 64 and 32 first (41_display.md R86, R90). -/
def drawSprite (f : Frame) (x y : Byte) (sprite : List Byte) : Drawing :=
  (Drawing.start f).rows (x.toNat % 64) (y.toNat % 32) sprite

end Sys2Proof.Machine
end

