-- ==== Sys2Proof/Machine/Display.lean ====
section
/-! DEFINITION. The display instructions 00E0 and DXYN (41_display.md). -/

namespace Sys2Proof.Machine

/-- CLS (41_display.md R89). -/
def execCls (s : State) : Host.Outcome State Fault Refusal :=
  conclude .cls s (.ok ((s.setFb Frame.allOff).setDirty true).advance)

/-- What a finished draw leaves: the frame, VF, and `dirty` set if a pixel changed (41_display.md R90). -/
def State.afterDrawing (s : State) (d : Drawing) : State :=
  (((s.setFb d.fb).setV vf (if d.collision then 1 else 0)).setDirty (s.dirty || d.changed)).advance

/-- DRW (41_display.md R90). `DXY0` is illegal (30_encoding.md R67). -/
def execDrw (x y : RegIx) (n : Nibble) (s : State) : Host.Outcome State Fault Refusal :=
  conclude (.drw x y n) s (
    if n = 0#4 then .error decodeTrap
    else do
      let a ← readV x s
      let b ← readV y s
      let base ← readI s
      let sprite ← readBytes s.mem base.toNat n.toNat
      return s.afterDrawing (drawSprite s.fb a b sprite))

end Sys2Proof.Machine
end

