-- ==== Sys2Proof/Machine/IndexMemory.lean ====
section
/-! DEFINITION. The index-register and memory instructions of 44_index_memory.md; the cycle adds 2 to PC after each. -/

namespace Sys2Proof.Machine

/-- LD I, addr (44_index_memory.md R114). -/
def execLdINnn (nnn : Addr12) (s : State) : Host.Outcome State Fault Refusal :=
  conclude (.ldINnn nnn) s (.ok (s.setI (addrOf nnn)).advance)

/-- ADD I, Vx: modulo 65536, no flag (44_index_memory.md R115). -/
def execAddIVx (x : RegIx) (s : State) : Host.Outcome State Fault Refusal :=
  conclude (.addIVx x) s (do
    let i ← readI s
    let v ← readV x s
    return (s.setI (BitVec.ofNat 16 ((i.toNat + v.toNat) % 65536))).advance)

/-- LD F, Vx (44_index_memory.md R116). -/
def execLdFVx (x : RegIx) (s : State) : Host.Outcome State Fault Refusal :=
  conclude (.ldFVx x) s (do
    let v ← readV x s
    return (s.setI (glyphAddress v)).advance)

/-- The decimal digits of a byte: hundreds, tens, ones (44_index_memory.md R117). -/
def decimalDigits (v : Byte) : List Byte :=
  [BitVec.ofNat 8 (v.toNat / 100), BitVec.ofNat 8 (v.toNat / 10 % 10), BitVec.ofNat 8 (v.toNat % 10)]

/-- LD B, Vx (44_index_memory.md R117). -/
def execLdBVx (x : RegIx) (s : State) : Host.Outcome State Fault Refusal :=
  conclude (.ldBVx x) s (do
    let v ← readV x s
    let base ← readI s
    let m ← writeBytes s.mem base.toNat (decimalDigits v)
    return (s.setMem m).advance)

/-- LD [I], Vx: `V[0]..V[X]` to memory at `I` (44_index_memory.md R118). -/
def execLdMemVx (x : RegIx) (s : State) : Host.Outcome State Fault Refusal :=
  conclude (.ldMemVx x) s (do
    let base ← readI s
    let vs ← readVs s 0 (blockSize x)
    let m ← writeBytes s.mem base.toNat vs
    return (s.setMem m).advance)

/-- LD Vx, [I]: `V[0]..V[X]` from memory at `I` (44_index_memory.md R119). -/
def execLdVxMem (x : RegIx) (s : State) : Host.Outcome State Fault Refusal :=
  conclude (.ldVxMem x) s (do
    let base ← readI s
    let bs ← readBytes s.mem base.toNat (blockSize x)
    return (s.setVs 0 bs).advance)

end Sys2Proof.Machine
end

