-- ==== Sys2Proof/Machine/KeysTimers.lean ====
section
/-! DEFINITION. The key and timer instructions of 45_keys_timers.md. -/

namespace Sys2Proof.Machine

/-- SKP (45_keys_timers.md R121). -/
def execSkp (x : RegIx) (s : State) : Host.Outcome State Fault Refusal :=
  conclude (.skp x) s (do
    let b ← readV x s
    let k ← keyOf b
    let pressed := askKeyPressed k s
    return pressed.2.skipIf pressed.1)

/-- SKNP (45_keys_timers.md R122). -/
def execSknp (x : RegIx) (s : State) : Host.Outcome State Fault Refusal :=
  conclude (.sknp x) s (do
    let b ← readV x s
    let k ← keyOf b
    let pressed := askKeyPressed k s
    return pressed.2.skipIf (!pressed.1))

/-- LD Vx, DT (45_keys_timers.md R123). -/
def execLdVxDt (x : RegIx) (s : State) : Host.Outcome State Fault Refusal :=
  conclude (.ldVxDt x) s (.ok (s.setV x s.dt).advance)

/-- LD Vx, K: enter the key wait; PC is not advanced (45_keys_timers.md R126, 40_execution_cycle.md R79). -/
def execLdVxK (x : RegIx) (s : State) : Host.Outcome State Fault Refusal :=
  conclude (.ldVxK x) s (.ok (s.setRun (.waitKey x)))

/-- LD DT, Vx (45_keys_timers.md R124). -/
def execLdDtVx (x : RegIx) (s : State) : Host.Outcome State Fault Refusal :=
  conclude (.ldDtVx x) s (do
    let b ← readV x s
    return (s.setDt b).advance)

/-- LD ST, Vx (45_keys_timers.md R125). -/
def execLdStVx (x : RegIx) (s : State) : Host.Outcome State Fault Refusal :=
  conclude (.ldStVx x) s (do
    let b ← readV x s
    return (s.setSt b).advance)

end Sys2Proof.Machine
end

