-- ==== Sys2Proof/Machine/RegisterAlu.lean ====
section
/-! DEFINITION. The register and ALU instructions of 43_register_alu.md; the cycle adds 2 to PC after each. -/

namespace Sys2Proof.Machine

/-- LD Vx, byte (43_register_alu.md R102). -/
def execLdVxNn (x : RegIx) (nn : Byte) (s : State) : Host.Outcome State Fault Refusal :=
  conclude (.ldVxNn x nn) s (.ok (s.setV x nn).advance)

/-- ADD Vx, byte: no flag (43_register_alu.md R103). -/
def execAddVxNn (x : RegIx) (nn : Byte) (s : State) : Host.Outcome State Fault Refusal :=
  conclude (.addVxNn x nn) s (do
    let a ← readV x s
    return (s.setV x (sumByte a nn)).advance)

/-- LD Vx, Vy: `V[X]` is not read (43_register_alu.md R104). -/
def execLdVxVy (x y : RegIx) (s : State) : Host.Outcome State Fault Refusal :=
  conclude (.ldVxVy x y) s (do
    let b ← readV y s
    return (s.setV x b).advance)

/-- OR (43_register_alu.md R105). -/
def execOrVxVy (x y : RegIx) (s : State) : Host.Outcome State Fault Refusal :=
  conclude (.orVxVy x y) s (do
    let a ← readV x s
    let b ← readV y s
    return (s.setV x (a ||| b)).advance)

/-- AND (43_register_alu.md R106). -/
def execAndVxVy (x y : RegIx) (s : State) : Host.Outcome State Fault Refusal :=
  conclude (.andVxVy x y) s (do
    let a ← readV x s
    let b ← readV y s
    return (s.setV x (a &&& b)).advance)

/-- XOR (43_register_alu.md R107). -/
def execXorVxVy (x y : RegIx) (s : State) : Host.Outcome State Fault Refusal :=
  conclude (.xorVxVy x y) s (do
    let a ← readV x s
    let b ← readV y s
    return (s.setV x (a ^^^ b)).advance)

/-- ADD Vx, Vy: add with carry (43_register_alu.md R108). -/
def execAddVxVy (x y : RegIx) (s : State) : Host.Outcome State Fault Refusal :=
  conclude (.addVxVy x y) s (do
    let a ← readV x s
    let b ← readV y s
    return (s.setResultAndFlag x (sumByte a b) (carryFlag a b)).advance)

/-- SUB: `V[X] - V[Y]` (43_register_alu.md R109). -/
def execSub (x y : RegIx) (s : State) : Host.Outcome State Fault Refusal :=
  conclude (.sub x y) s (do
    let a ← readV x s
    let b ← readV y s
    return (s.setResultAndFlag x (differenceByte a b) (noBorrowFlag a b)).advance)

/-- SHR: `V[X]` in place, `V[Y]` not read (43_register_alu.md R110). -/
def execShr (x y : RegIx) (s : State) : Host.Outcome State Fault Refusal :=
  conclude (.shr x y) s (do
    let a ← readV x s
    return (s.setResultAndFlag x (a >>> 1) (lsbFlag a)).advance)

/-- SUBN: `V[Y] - V[X]` (43_register_alu.md R111). -/
def execSubn (x y : RegIx) (s : State) : Host.Outcome State Fault Refusal :=
  conclude (.subn x y) s (do
    let a ← readV x s
    let b ← readV y s
    return (s.setResultAndFlag x (differenceByte b a) (noBorrowFlag b a)).advance)

/-- SHL: `V[X]` in place, `V[Y]` not read (43_register_alu.md R112). -/
def execShl (x y : RegIx) (s : State) : Host.Outcome State Fault Refusal :=
  conclude (.shl x y) s (do
    let a ← readV x s
    return (s.setResultAndFlag x (a <<< 1) (msbFlag a)).advance)

/-- RND: a fresh random byte under the mask (43_register_alu.md R113). -/
def execRnd (x : RegIx) (nn : Byte) (s : State) : Host.Outcome State Fault Refusal :=
  conclude (.rnd x nn) s (
    let drawn := askRandomByte s
    .ok (drawn.2.setV x (drawn.1 &&& nn)).advance)

end Sys2Proof.Machine
end

