-- ==== Sys2Proof/Machine/Cycle.lean ====
section
/-! DEFINITION. The steps of the machine: the cycle and the steps of the environment (40_execution_cycle.md R72..R82). -/

namespace Sys2Proof.Machine

/-- A `Cycle` in `Running`: fetch, decode, execute, advance (40_execution_cycle.md R74). -/
def runningCycle (s : State) : Host.Outcome State Fault Refusal :=
  match fetchWord s with
  | .error e => .next (takeFault none e s)
  | .ok op =>
    match decodeWord op with
    | .error _ => .next (takeFault (some op) decodeTrap s)
    | .ok i => exec i s

/-- A `Cycle` in `WaitKey(x)`: one poll (40_execution_cycle.md R81). -/
def waitCycle (x : RegIx) (s : State) : State :=
  let poll := askPollKey s
  match poll.1 with
  | none => poll.2
  | some k => ((poll.2.setV x (k.setWidth 8)).advance).setRun .running

/-- A `Cycle`: it exists in `Running` and `WaitKey(x)` only (40_execution_cycle.md R73). -/
def cycle (s : State) : Host.Outcome State Fault Refusal :=
  match s.run with
  | .running => runningCycle s
  | .waitKey x => .next (waitCycle x s)
  | .unloaded => .fault .unloaded
  | .faulted r => .fault (.faulted r)
  | .stopped => .fault .stopped

/-- A timer's countdown, saturating at 0 (60_exceptions.md R137). -/
def countDown (b : Byte) : Byte := if b = 0 then 0 else b - 1

/-- A `Tick` (60_exceptions.md R137). -/
def tick (s : State) : State :=
  match s.run with
  | .running | .waitKey _ => (s.setDt (countDown s.dt)).setSt (countDown s.st)
  | .unloaded | .faulted _ | .stopped => s

/-- A `Present`: the host receives the frame, `dirty` and the snapshot; `dirty` is cleared (60_exceptions.md R140). -/
def present (s : State) : State := (s.report (.frame s.fb s.dirty s.snapshot)).setDirty false

/-- A `Shutdown` (60_exceptions.md R141). -/
def shutdown (s : State) : State :=
  match s.run with
  | .running | .waitKey _ => s.setRun .stopped
  | .unloaded | .faulted _ | .stopped => s

/-- One step of the machine, of the given kind (40_execution_cycle.md R72). -/
def perform (k : MachineStep) (s : State) : Host.Outcome State Fault Refusal :=
  match k with
  | .cycle => cycle s
  | .tick => .next (tick s)
  | .present => .next (present s)
  | .shutdown => .next (shutdown s)
  | .load rom readable => .next (load rom readable s)

/-- The kind of step the environment has chosen next: a `Cycle` when it has listed nothing (log entry 4). -/
def nextKind (s : State) : MachineStep := s.env.schedule.headD .cycle

/-- The state with that choice used up. -/
def State.dequeued (s : State) : State := s.setEnv { s.env with schedule := s.env.schedule.tail }

/-- The next step of the machine: the environment's choice, performed. -/
def performNext (s : State) : Host.Outcome State Fault Refusal := perform (nextKind s) s.dequeued

end Sys2Proof.Machine
end

