-- ==== Sys2Proof/Machine/Step.lean ====
section
/-! DEFINITION. One step of the machine, and an instruction placed where the next step fetches. -/

namespace Sys2Proof.Machine

/-- One step: the step the environment has chosen next (40_execution_cycle.md R72), a `Cycle` by default. -/
def step (s : State) : Host.Outcome State Fault Refusal := performNext s

/-- `s` with an instruction of the opcode table placed where the next step fetches it: it stands for a `Load` of a ROM
that begins with it (log entry 7). -/
def State.withFetchWord (s : State) (nbits w : Nat) : State := placeInstruction s (tableWord nbits w)

end Sys2Proof.Machine
end

