-- ==== Sys2Proof/Safety.lean ====
section
/-! DEFINITION. The terms claims use: what stays unchanged, the words of the encoding table, when an instruction raises a
fault, the invariants of the machine, and the states at power-on. -/

namespace Sys2Proof.Machine

/-! ### Frames -/

/-- The parts of the state (10_state.md R20, with the parameters and the environment's side). -/
inductive Part where
  | mem | regs | i | pc | stack | dt | st | fb | dirty | run | params | env
  deriving DecidableEq, Repr

/-- A part is the same in two states: memory through the read of every byte, registers through every register. -/
def Part.same (s t : State) : Part → Prop
  | .mem => ∀ a, Memory.byteAt t.mem a = Memory.byteAt s.mem a
  | .regs => ∀ r, t.getV r = s.getV r
  | .i => t.i = s.i
  | .pc => t.pc = s.pc
  | .stack => t.stack = s.stack
  | .dt => t.dt = s.dt
  | .st => t.st = s.st
  | .fb => t.fb = s.fb
  | .dirty => t.dirty = s.dirty
  | .run => t.run = s.run
  | .params => t.params = s.params
  | .env => t.env = s.env

/-- Every part but the named ones is the same in `t` as in `s`. -/
def unchangedBut (parts : List Part) (s t : State) : Prop := ∀ p, p ∉ parts → p.same s t

/-- Every register but the named ones is the same in `t` as in `s`. -/
def regsUnchangedBut (xs : List RegIx) (s t : State) : Prop := ∀ r, r ∉ xs → t.getV r = s.getV r

/-- Every byte of memory outside the `n` bytes from `a` reads in `t` as in `s`. -/
def memUnchangedOutside (a n : Nat) (s t : State) : Prop :=
  ∀ b, ¬(a ≤ b ∧ b < a + n) → Memory.byteAt t.mem b = Memory.byteAt s.mem b

/-! ### Encodings and faults, as the rules write them -/

/-- `base | X << 8 | NN`. -/
def opXNN (base : Word) (x : RegIx) (nn : Byte) : Word := base ||| (x.setWidth 16 <<< 8) ||| nn.setWidth 16
/-- `base | X << 8 | Y << 4`. -/
def opXY (base : Word) (x y : RegIx) : Word := base ||| (x.setWidth 16 <<< 8) ||| (y.setWidth 16 <<< 4)
/-- `base | X << 8`. -/
def opX (base : Word) (x : RegIx) : Word := base ||| (x.setWidth 16 <<< 8)
/-- `base | NNN`. -/
def opNNN (base : Word) (nnn : Addr12) : Word := base ||| nnn.setWidth 16

/-- `op` is the word of `i`, for the encoder and for the decoder. -/
def isWordOf (op : Word) (i : Instr) : Prop := encode i = op ∧ decodeWord op = .ok i

/-- Executing `i`, whose word is `op`, raises a fault: the whole effect is the run state with its record (60_exceptions.md
R128, 10_state.md R36). -/
def raises (i : Instr) (op : Word) (s : State) (code : FaultCode) (info : FaultInfo) : Prop :=
  exec i s = .next { s with run := .faulted { code := code, pc := s.pc, opcode := some op, info := info } }

/-- The next step is a `Cycle` of a running machine (40_execution_cycle.md R74). -/
def runsNext (s : State) : Prop := nextKind s = .cycle ∧ s.run = .running

/-! ### Sprites -/

/-- A 1 bit of the `n` sprite bytes at `base`, drawn at `(x0, y0)`, falls on the pixel `(px, py)`: the bit for row `r` and
column offset `c` falls on `((x0 + c) mod 64, (y0 + r) mod 32)` (41_display.md R85, R86). -/
def spriteCovers (m : Memory) (base n x0 y0 : Nat) (px : Fin 64) (py : Fin 32) : Prop :=
  ∃ r < n, ∃ c < 8, (Memory.byteAt m (base + r)).getLsbD (7 - c) = true ∧
    px.val = (x0 + c) % 64 ∧ py.val = (y0 + r) % 32

/-! ### Invariants -/

/-- Memory is canonical, and no byte that a program cannot access differs from what Load leaves there (20_memory.md R45,
R47, R49). -/
def memoryInv (s : State) : Prop := s.mem.wf ∧ ∀ c ∈ s.mem, dataAccessible c.1

/-- At most 48 return addresses, each the address after a fetched CALL (10_state.md R28, 40_execution_cycle.md R80). -/
def stackInv (s : State) : Prop :=
  s.stack.length ≤ 48 ∧ ∀ a ∈ s.stack, 514 ≤ a.toNat ∧ a.toNat ≤ 3760

/-- PC is at most 4350, so that no PC arithmetic wraps (40_execution_cycle.md R80). -/
def pcInv (s : State) : Prop := s.pc.toNat ≤ 4350

/-- A key wait stands at its own FX0A, which PC still addresses (40_execution_cycle.md R81). -/
def waitInv (s : State) : Prop :=
  ∀ x, s.run = .waitKey x → fetchAllowed s.pc ∧ decodeWord (wordAt s.mem s.pc) = .ok (.ldVxK x)

/-- A fault record names the PC, which still addresses the faulting instruction, and the word fetched there, or none when
the fetch itself faulted; a LoadError is never in a record (60_exceptions.md R128, R130, R132). -/
def recordInv (s : State) : Prop :=
  ∀ r, s.run = .faulted r → r.pc = s.pc ∧
    ((r.code = .pcOutOfRange ∧ ¬fetchAllowed s.pc ∧ r.opcode = none ∧ r.info = .pcValue s.pc) ∨
      (r.code ≠ .pcOutOfRange ∧ r.code ≠ .loadError ∧ fetchAllowed s.pc ∧ r.opcode = some (wordAt s.mem s.pc)))

/-- What holds of every machine once a ROM was loaded. Before that nothing is said: the contents at power-on are
unspecified (70_reset_and_hazards.md R146). -/
def State.Inv (s : State) : Prop :=
  s.run ≠ .unloaded → memoryInv s ∧ stackInv s ∧ pcInv s ∧ waitInv s ∧ recordInv s

/-- With `REGS_ZERO_AT_RESET` true, once a ROM was loaded every register and `I` holds a value (60_exceptions.md R131). -/
def allInitialised (s : State) : Prop :=
  s.params.regsZeroAtReset = true ∧
    (s.run ≠ .unloaded → (∀ r, s.getV r ≠ .uninitialised) ∧ s.i ≠ .uninitialised)

/-! ### Safe runs -/

/-- A state in which no fatal error has occurred. -/
def faultFree (s : State) : Prop := ∀ r, s.run ≠ .faulted r

/-! ### Power-on -/

/-- A machine at power-on: unloaded, `FB` holds `FB_INIT`, `dirty` is 0, and everything else is unspecified
(70_reset_and_hazards.md R146). -/
def atPowerOn (s : State) : Prop := s.run = .unloaded ∧ s.fb = s.params.fbInit ∧ s.dirty = false

end Sys2Proof.Machine
end

