-- ==== Sys2Proof/Certificates/Slice0/Obligations.lean ====
section
/-! DEFINITION. The statements for the provers, each with the rule of spec/ it formalises. An instruction's statement says
its word, its result with all it leaves unchanged, and its faults. `s.pc + 2` and `s.pc + 4` are 16-bit sums; they wrap only
in states no fetch reaches, which is the model's reading (log entry 10). The kind of the next step (`nextKind`), and what a
step uses up or appends in `env`, are the model's own fields (log entries 4 to 6). -/

open Sys2Proof Sys2Proof.Machine

/-! ### Encoding -/

/-- Every well-formed instruction is decoded back from its word, every operand at every value (30_encoding.md R65, R66; for
SYS log entry 9). -/
def Obligations.EncodedInstructionsDecodeBack : Prop :=
  ∀ i : Instr, i.wellFormed = true → decodeWord (encode i) = .ok i

/-- Every word that decodes is the encoding of what it decodes to, which is well formed (30_encoding.md R65, R68). -/
def Obligations.DecodedWordsEncodeBack : Prop :=
  ∀ (op : Word) (i : Instr), decodeWord op = .ok i → encode i = op ∧ i.wellFormed = true

/-- The words without an executing instruction are those of the table of 30_encoding.md R67, SYS among them
(log entry 9). -/
def Obligations.IllegalWordsByFamily : Prop :=
  ∀ op : Word,
    ((∃ e, decodeWord op = .error e) ∨ (∃ nnn, decodeWord op = .ok (.sys nnn))) ↔
      let f := op.toNat / 4096
      let n := op.toNat % 16
      let nn := op.toNat % 256
      (f = 0x0 ∧ op ≠ 0x00E0 ∧ op ≠ 0x00EE) ∨
      (f = 0x5 ∧ n ≠ 0) ∨
      (f = 0x8 ∧ n ∈ [0x8, 0x9, 0xA, 0xB, 0xC, 0xD, 0xF]) ∨
      (f = 0x9 ∧ n ≠ 0) ∨
      (f = 0xD ∧ n = 0) ∨
      (f = 0xE ∧ nn ∉ [0x9E, 0xA1]) ∨
      (f = 0xF ∧ nn ∉ [0x07, 0x0A, 0x15, 0x18, 0x1E, 0x29, 0x33, 0x55, 0x65])

/-- Words written out in 95_test_vectors.md decode to the instructions they stand for there; 0123 to SYS (log entry 9). -/
def Obligations.WordsOfTheTestVectorsDecode : Prop :=
  decodeWord 0x00E0 = .ok .cls ∧ decodeWord 0x00EE = .ok .ret ∧ decodeWord 0x0123 = .ok (.sys 0x123) ∧
  decodeWord 0x2300 = .ok (.call 0x300) ∧ decodeWord 0x5120 = .ok (.seVxVy 1 2) ∧
  decodeWord 0x8127 = .ok (.subn 1 2) ∧ decodeWord 0xD125 = .ok (.drw 1 2 5) ∧
  decodeWord 0xE5A1 = .ok (.sknp 5) ∧ decodeWord 0xF20A = .ok (.ldVxK 2) ∧ decodeWord 0xF355 = .ok (.ldMemVx 3) ∧
  decodeWord 0xD010 = .error .zeroHeight ∧ decodeWord 0x812F = .error .selector8

/-! ### The cycle -/

/-- When the next step is a `Cycle` of a running machine, PC may be fetched and the bytes there decode to `i`, the step is
`exec` of `i`; only the environment's choice of this step (log entry 4) is used up around it (40_execution_cycle.md R74, R77). -/
def Obligations.StepRunsDecodedInstruction : Prop :=
  ∀ (s : State) (i : Instr), runsNext s → fetchAllowed s.pc → decodeWord (wordAt s.mem s.pc) = .ok i →
    step s = exec i s.dequeued

/-- Fetch answers the big-endian word at PC when both bytes lie in 0x200..0xEAF, for even and odd PC alike, and otherwise
raises `PcOutOfRange` with the PC (40_execution_cycle.md R75). -/
def Obligations.FetchReadsTwoBytesBigEndian : Prop :=
  ∀ s : State,
    (0x200 ≤ s.pc.toNat ∧ s.pc.toNat ≤ 0xEAE →
      ∃ op, fetchWord s = .ok op ∧
        op.toNat = (Memory.byteAt s.mem s.pc.toNat).toNat * 256 + (Memory.byteAt s.mem (s.pc.toNat + 1)).toNat) ∧
    (¬(0x200 ≤ s.pc.toNat ∧ s.pc.toNat ≤ 0xEAE) →
      fetchWord s = .error { code := .pcOutOfRange, info := .pcValue s.pc })

/-- A `Cycle` of a running machine that cannot fetch at PC, or fetches an illegal word, takes the fault: the run state with
its record is all that changes, apart from the environment's choice used up (40_execution_cycle.md R74, R76, R82). -/
def Obligations.CycleTakesFetchAndDecodeFaults : Prop :=
  ∀ s : State, runsNext s →
    (¬fetchAllowed s.pc →
      step s = .next { s.dequeued with
        run := .faulted { code := .pcOutOfRange, pc := s.pc, opcode := none, info := .pcValue s.pc } }) ∧
    (∀ e, fetchAllowed s.pc → decodeWord (wordAt s.mem s.pc) = .error e →
      step s = .next { s.dequeued with
        run := .faulted { code := .decodeError, pc := s.pc, opcode := some (wordAt s.mem s.pc), info := .none } })

/-! ### Display -/

/-- CLS (41_display.md R89): every pixel off, `dirty` set, PC + 2, nothing else. -/
def Obligations.ClearDisplay : Prop :=
  isWordOf 0x00E0 .cls ∧
  ∀ s : State, ∃ t, exec .cls s = .next t ∧ (∀ x y, t.fb.pixel x y = false) ∧ t.dirty = true ∧ t.pc = s.pc + 2 ∧
    unchangedBut [.fb, .dirty, .pc] s t

/-- DRW completes (41_display.md R85, R86, R87, R90): each pixel under a 1 bit of the sprite is toggled and every other is
left; VF is 1 exactly if one of those was on; `dirty` is set if there was one; PC + 2; nothing else. -/
def Obligations.DrawSpriteTogglesAndCollides : Prop :=
  ∀ (x y : RegIx) (n : Nibble) (s : State) (a b : Byte) (base : Word),
    n ≠ 0#4 → s.getV x = .holds a → s.getV y = .holds b → s.i = .holds base →
    (∀ r < n.toNat, dataAccessible (base.toNat + r)) →
    ∃ t, exec (.drw x y n) s = .next t ∧
      (∀ px py,
        (spriteCovers s.mem base.toNat n.toNat (a.toNat % 64) (b.toNat % 32) px py →
          t.fb.pixel px py = !s.fb.pixel px py) ∧
        (¬spriteCovers s.mem base.toNat n.toNat (a.toNat % 64) (b.toNat % 32) px py →
          t.fb.pixel px py = s.fb.pixel px py)) ∧
      ((∃ px py, spriteCovers s.mem base.toNat n.toNat (a.toNat % 64) (b.toNat % 32) px py ∧ s.fb.pixel px py = true) →
        t.getV 15#4 = .holds 1) ∧
      ((¬∃ px py, spriteCovers s.mem base.toNat n.toNat (a.toNat % 64) (b.toNat % 32) px py ∧ s.fb.pixel px py = true) →
        t.getV 15#4 = .holds 0) ∧
      regsUnchangedBut [15#4] s t ∧
      ((∃ px py, spriteCovers s.mem base.toNat n.toNat (a.toNat % 64) (b.toNat % 32) px py) → t.dirty = true) ∧
      ((¬∃ px py, spriteCovers s.mem base.toNat n.toNat (a.toNat % 64) (b.toNat % 32) px py) → t.dirty = s.dirty) ∧
      t.pc = s.pc + 2 ∧ unchangedBut [.fb, .regs, .dirty, .pc] s t

/-- DRW's word and its faults, in their order (41_display.md R90, 60_exceptions.md R133): V[X], V[Y], I uninitialised, then
the first sprite byte that cannot be read; `DXY0` is illegal. -/
def Obligations.DrawSpriteFaults : Prop :=
  ∀ (x y : RegIx) (n : Nibble) (s : State),
    (n ≠ 0#4 → isWordOf (opXY 0xD000 x y ||| n.setWidth 16) (.drw x y n)) ∧
    decodeWord (opXY 0xD000 x y) = .error .zeroHeight ∧
    (n ≠ 0#4 → s.getV x = .uninitialised →
      raises (.drw x y n) (opXY 0xD000 x y ||| n.setWidth 16) s .uninitialisedRead (.register (.v x))) ∧
    (∀ a, n ≠ 0#4 → s.getV x = .holds a → s.getV y = .uninitialised →
      raises (.drw x y n) (opXY 0xD000 x y ||| n.setWidth 16) s .uninitialisedRead (.register (.v y))) ∧
    (∀ a b, n ≠ 0#4 → s.getV x = .holds a → s.getV y = .holds b → s.i = .uninitialised →
      raises (.drw x y n) (opXY 0xD000 x y ||| n.setWidth 16) s .uninitialisedRead (.register .i)) ∧
    (∀ a b base r, s.getV x = .holds a → s.getV y = .holds b → s.i = .holds base → r < n.toNat →
      (∀ k < r, dataAccessible (base.toNat + k)) → ¬dataAccessible (base.toNat + r) →
      raises (.drw x y n) (opXY 0xD000 x y ||| n.setWidth 16) s .memoryAccessFault (.access (base.toNat + r) .read))

/-! ### Control flow -/

/-- RET (42_control_flow.md R91): the last address of the stack is popped into PC, with no 2 added; an empty stack raises
`StackError(pop)`. -/
def Obligations.ReturnPopsStack : Prop :=
  isWordOf 0x00EE .ret ∧
  ∀ s : State,
    (∀ (as : List Word) (a : Word), s.stack = as ++ [a] →
      ∃ t, exec .ret s = .next t ∧ t.pc = a ∧ t.stack = as ∧ unchangedBut [.stack, .pc] s t) ∧
    (s.stack = [] → raises .ret 0x00EE s .stackError .pop)

/-- SYS (42_control_flow.md R99): every `0NNN` but 00E0 and 00EE raises `DecodeError(op, pc)` and writes nothing else. That
the decoder answers `sys nnn` and its meaning raises the fault, where the spec's Decode answers DecodeError itself, is the
model's choice (log entry 9). -/
def Obligations.NativeCallRaisesDecodeError : Prop :=
  ∀ (nnn : Addr12) (s : State), nnn ≠ 0x0E0#12 → nnn ≠ 0x0EE#12 →
    isWordOf (opNNN 0x0000 nnn) (.sys nnn) ∧ raises (.sys nnn) (opNNN 0x0000 nnn) s .decodeError .none

/-- JP (42_control_flow.md R92): PC becomes NNN, any NNN, and nothing else changes. -/
def Obligations.JumpSetsPc : Prop :=
  ∀ (nnn : Addr12) (s : State),
    isWordOf (opNNN 0x1000 nnn) (.jp nnn) ∧
    ∃ t, exec (.jp nnn) s = .next t ∧ t.pc.toNat = nnn.toNat ∧ unchangedBut [.pc] s t

/-- CALL (42_control_flow.md R93): PC + 2 is pushed and PC becomes NNN, up to 48 entries; a full stack raises
`StackError(push)`. -/
def Obligations.CallPushesReturnAddress : Prop :=
  ∀ (nnn : Addr12) (s : State),
    isWordOf (opNNN 0x2000 nnn) (.call nnn) ∧
    (s.stack.length < 48 →
      ∃ t, exec (.call nnn) s = .next t ∧ t.stack = s.stack ++ [s.pc + 2] ∧ t.pc.toNat = nnn.toNat ∧
        unchangedBut [.stack, .pc] s t) ∧
    (s.stack.length = 48 → raises (.call nnn) (opNNN 0x2000 nnn) s .stackError .push)

/-- SE and SNE with a byte (42_control_flow.md R94, R95): PC + 4 when V[X] equals (differs from) NN, else PC + 2. -/
def Obligations.SkipsComparingByte : Prop :=
  ∀ (x : RegIx) (nn : Byte) (s : State),
    isWordOf (opXNN 0x3000 x nn) (.seVxNn x nn) ∧ isWordOf (opXNN 0x4000 x nn) (.sneVxNn x nn) ∧
    (∀ a, s.getV x = .holds a →
      (∃ t, exec (.seVxNn x nn) s = .next t ∧ t.pc = (if a = nn then s.pc + 4 else s.pc + 2) ∧
        unchangedBut [.pc] s t) ∧
      (∃ t, exec (.sneVxNn x nn) s = .next t ∧ t.pc = (if a = nn then s.pc + 2 else s.pc + 4) ∧
        unchangedBut [.pc] s t)) ∧
    (s.getV x = .uninitialised →
      raises (.seVxNn x nn) (opXNN 0x3000 x nn) s .uninitialisedRead (.register (.v x)) ∧
      raises (.sneVxNn x nn) (opXNN 0x4000 x nn) s .uninitialisedRead (.register (.v x)))

/-- SE and SNE with a register (42_control_flow.md R96, R97): PC + 4 when V[X] equals (differs from) V[Y], else PC + 2. -/
def Obligations.SkipsComparingRegister : Prop :=
  ∀ (x y : RegIx) (s : State),
    isWordOf (opXY 0x5000 x y) (.seVxVy x y) ∧ isWordOf (opXY 0x9000 x y) (.sneVxVy x y) ∧
    (∀ n : Nibble, n ≠ 0#4 → (∃ e, decodeWord (opXY 0x5000 x y ||| n.setWidth 16) = .error e) ∧
      ∃ e, decodeWord (opXY 0x9000 x y ||| n.setWidth 16) = .error e) ∧
    (∀ a b, s.getV x = .holds a → s.getV y = .holds b →
      (∃ t, exec (.seVxVy x y) s = .next t ∧ t.pc = (if a = b then s.pc + 4 else s.pc + 2) ∧
        unchangedBut [.pc] s t) ∧
      (∃ t, exec (.sneVxVy x y) s = .next t ∧ t.pc = (if a = b then s.pc + 2 else s.pc + 4) ∧
        unchangedBut [.pc] s t)) ∧
    (s.getV x = .uninitialised →
      raises (.seVxVy x y) (opXY 0x5000 x y) s .uninitialisedRead (.register (.v x)) ∧
      raises (.sneVxVy x y) (opXY 0x9000 x y) s .uninitialisedRead (.register (.v x))) ∧
    (∀ a, s.getV x = .holds a → s.getV y = .uninitialised →
      raises (.seVxVy x y) (opXY 0x5000 x y) s .uninitialisedRead (.register (.v y)) ∧
      raises (.sneVxVy x y) (opXY 0x9000 x y) s .uninitialisedRead (.register (.v y)))

/-- JP V0 (42_control_flow.md R98): PC becomes NNN + V[0], not reduced, V0 whatever the second nibble. -/
def Obligations.JumpPlusV0 : Prop :=
  ∀ (nnn : Addr12) (s : State),
    isWordOf (opNNN 0xB000 nnn) (.jpV0 nnn) ∧
    (∀ a, s.getV 0#4 = .holds a →
      ∃ t, exec (.jpV0 nnn) s = .next t ∧ t.pc.toNat = nnn.toNat + a.toNat ∧ unchangedBut [.pc] s t) ∧
    (s.getV 0#4 = .uninitialised →
      raises (.jpV0 nnn) (opNNN 0xB000 nnn) s .uninitialisedRead (.register (.v 0#4)))

/-- A CALL followed by a RET is back at the instruction after the CALL, with the stack and everything else as before it
(42_control_flow.md R91, R93; 95_test_vectors.md L1-5). -/
def Obligations.CallThenReturnComesBack : Prop :=
  ∀ (nnn : Addr12) (s t : State), s.stack.length < 48 → exec (.call nnn) s = .next t →
    ∃ u, exec .ret t = .next u ∧ u.pc = s.pc + 2 ∧ unchangedBut [.pc] s u

/-! ### Registers and ALU -/

/-- LD Vx, byte (43_register_alu.md R102): V[X] becomes NN, whatever it was. -/
def Obligations.LoadImmediate : Prop :=
  ∀ (x : RegIx) (nn : Byte) (s : State),
    isWordOf (opXNN 0x6000 x nn) (.ldVxNn x nn) ∧
    ∃ t, exec (.ldVxNn x nn) s = .next t ∧ t.getV x = .holds nn ∧ regsUnchangedBut [x] s t ∧ t.pc = s.pc + 2 ∧
      unchangedBut [.regs, .pc] s t

/-- ADD Vx, byte (43_register_alu.md R103): the sum modulo 256, and VF is not written unless it is V[X]. -/
def Obligations.AddImmediateWithoutFlag : Prop :=
  ∀ (x : RegIx) (nn : Byte) (s : State),
    isWordOf (opXNN 0x7000 x nn) (.addVxNn x nn) ∧
    (∀ a, s.getV x = .holds a →
      ∃ t, exec (.addVxNn x nn) s = .next t ∧ t.getV x = .holds (BitVec.ofNat 8 ((a.toNat + nn.toNat) % 256)) ∧
        regsUnchangedBut [x] s t ∧ t.pc = s.pc + 2 ∧ unchangedBut [.regs, .pc] s t) ∧
    (s.getV x = .uninitialised →
      raises (.addVxNn x nn) (opXNN 0x7000 x nn) s .uninitialisedRead (.register (.v x)))

/-- LD Vx, Vy (43_register_alu.md R104): V[X] becomes V[Y]; V[X] is not read. -/
def Obligations.CopyRegister : Prop :=
  ∀ (x y : RegIx) (s : State),
    isWordOf (opXY 0x8000 x y) (.ldVxVy x y) ∧
    (∀ b, s.getV y = .holds b →
      ∃ t, exec (.ldVxVy x y) s = .next t ∧ t.getV x = .holds b ∧ regsUnchangedBut [x] s t ∧ t.pc = s.pc + 2 ∧
        unchangedBut [.regs, .pc] s t) ∧
    (s.getV y = .uninitialised →
      raises (.ldVxVy x y) (opXY 0x8000 x y) s .uninitialisedRead (.register (.v y)))

/-- OR, AND, XOR (43_register_alu.md R105, R106, R107): the bitwise result in V[X]; VF and every other register unchanged. -/
def Obligations.LogicalOperationsWithoutFlag : Prop :=
  ∀ (i : Instr) (op : Word) (f : Byte → Byte → Byte) (x y : RegIx) (s : State),
    (i, op, f) ∈ [(Instr.orVxVy x y, opXY 0x8001 x y, fun a b => a ||| b),
      (Instr.andVxVy x y, opXY 0x8002 x y, fun a b => a &&& b),
      (Instr.xorVxVy x y, opXY 0x8003 x y, fun a b => a ^^^ b)] →
    isWordOf op i ∧
    (∀ a b, s.getV x = .holds a → s.getV y = .holds b →
      ∃ t, exec i s = .next t ∧ t.getV x = .holds (f a b) ∧ regsUnchangedBut [x] s t ∧ t.pc = s.pc + 2 ∧
        unchangedBut [.regs, .pc] s t) ∧
    (s.getV x = .uninitialised → raises i op s .uninitialisedRead (.register (.v x))) ∧
    (∀ a, s.getV x = .holds a → s.getV y = .uninitialised → raises i op s .uninitialisedRead (.register (.v y)))

/-- ADD Vx, Vy (43_register_alu.md R108, R101): the sum modulo 256 in V[X], then the carry in VF, which survives with X = 15. -/
def Obligations.AddWithCarry : Prop :=
  ∀ (x y : RegIx) (s : State),
    isWordOf (opXY 0x8004 x y) (.addVxVy x y) ∧
    (∀ a b, s.getV x = .holds a → s.getV y = .holds b →
      ∃ t, exec (.addVxVy x y) s = .next t ∧
        t.getV 15#4 = .holds (if a.toNat + b.toNat > 255 then 1 else 0) ∧
        (x ≠ 15#4 → t.getV x = .holds (BitVec.ofNat 8 ((a.toNat + b.toNat) % 256))) ∧
        regsUnchangedBut [x, 15#4] s t ∧ t.pc = s.pc + 2 ∧ unchangedBut [.regs, .pc] s t) ∧
    (s.getV x = .uninitialised →
      raises (.addVxVy x y) (opXY 0x8004 x y) s .uninitialisedRead (.register (.v x))) ∧
    (∀ a, s.getV x = .holds a → s.getV y = .uninitialised →
      raises (.addVxVy x y) (opXY 0x8004 x y) s .uninitialisedRead (.register (.v y)))

/-- SUB (43_register_alu.md R109, R101): V[X] - V[Y] modulo 256, then VF = 1 exactly when there is no borrow. -/
def Obligations.SubtractWithoutBorrowFlag : Prop :=
  ∀ (x y : RegIx) (s : State),
    isWordOf (opXY 0x8005 x y) (.sub x y) ∧
    (∀ a b, s.getV x = .holds a → s.getV y = .holds b →
      ∃ t, exec (.sub x y) s = .next t ∧
        t.getV 15#4 = .holds (if a.toNat ≥ b.toNat then 1 else 0) ∧
        (x ≠ 15#4 → t.getV x =
          .holds (BitVec.ofNat 8 (if a.toNat < b.toNat then a.toNat + 256 - b.toNat else a.toNat - b.toNat))) ∧
        regsUnchangedBut [x, 15#4] s t ∧ t.pc = s.pc + 2 ∧ unchangedBut [.regs, .pc] s t) ∧
    (s.getV x = .uninitialised →
      raises (.sub x y) (opXY 0x8005 x y) s .uninitialisedRead (.register (.v x))) ∧
    (∀ a, s.getV x = .holds a → s.getV y = .uninitialised →
      raises (.sub x y) (opXY 0x8005 x y) s .uninitialisedRead (.register (.v y)))

/-- SUBN (43_register_alu.md R111, R101): V[Y] - V[X] modulo 256, then VF = 1 exactly when V[Y] is at least V[X]. -/
def Obligations.ReversedSubtract : Prop :=
  ∀ (x y : RegIx) (s : State),
    isWordOf (opXY 0x8007 x y) (.subn x y) ∧
    (∀ a b, s.getV x = .holds a → s.getV y = .holds b →
      ∃ t, exec (.subn x y) s = .next t ∧
        t.getV 15#4 = .holds (if b.toNat ≥ a.toNat then 1 else 0) ∧
        (x ≠ 15#4 → t.getV x =
          .holds (BitVec.ofNat 8 (if b.toNat < a.toNat then b.toNat + 256 - a.toNat else b.toNat - a.toNat))) ∧
        regsUnchangedBut [x, 15#4] s t ∧ t.pc = s.pc + 2 ∧ unchangedBut [.regs, .pc] s t) ∧
    (s.getV x = .uninitialised →
      raises (.subn x y) (opXY 0x8007 x y) s .uninitialisedRead (.register (.v x))) ∧
    (∀ a, s.getV x = .holds a → s.getV y = .uninitialised →
      raises (.subn x y) (opXY 0x8007 x y) s .uninitialisedRead (.register (.v y)))

/-- SHR and SHL (43_register_alu.md R110, R112, R101): V[X] shifted in place by one, then the bit shifted out in VF; V[Y] is
not read, for any Y. -/
def Obligations.ShiftsInPlace : Prop :=
  ∀ (x y : RegIx) (s : State),
    isWordOf (opXY 0x8006 x y) (.shr x y) ∧ isWordOf (opXY 0x800E x y) (.shl x y) ∧
    (∀ a, s.getV x = .holds a →
      (∃ t, exec (.shr x y) s = .next t ∧ t.getV 15#4 = .holds (BitVec.ofNat 8 (a.toNat % 2)) ∧
        (x ≠ 15#4 → t.getV x = .holds (BitVec.ofNat 8 (a.toNat / 2))) ∧
        regsUnchangedBut [x, 15#4] s t ∧ t.pc = s.pc + 2 ∧ unchangedBut [.regs, .pc] s t) ∧
      (∃ t, exec (.shl x y) s = .next t ∧ t.getV 15#4 = .holds (BitVec.ofNat 8 (a.toNat / 128)) ∧
        (x ≠ 15#4 → t.getV x = .holds (BitVec.ofNat 8 (a.toNat * 2 % 256))) ∧
        regsUnchangedBut [x, 15#4] s t ∧ t.pc = s.pc + 2 ∧ unchangedBut [.regs, .pc] s t)) ∧
    (s.getV x = .uninitialised →
      raises (.shr x y) (opXY 0x8006 x y) s .uninitialisedRead (.register (.v x)) ∧
      raises (.shl x y) (opXY 0x800E x y) s .uninitialisedRead (.register (.v x)))

/-- RND (43_register_alu.md R113): V[X] becomes the drawn byte under the mask, V[X] not read; the draw is the environment's
next listed byte, or the free value when it lists none (the model's form of the draw: log entry 5). It uses up only the
environment's answer. -/
def Obligations.RandomByteUnderMask : Prop :=
  ∀ (x : RegIx) (nn : Byte) (s : State),
    isWordOf (opXNN 0xC000 x nn) (.rnd x nn) ∧
    (∀ r rs, s.env.randomBytes = r :: rs →
      ∃ t, exec (.rnd x nn) s = .next t ∧ t.getV x = .holds (r &&& nn) ∧ regsUnchangedBut [x] s t ∧
        t.pc = s.pc + 2 ∧ t.env = { s.env with randomBytes := rs, asked := s.env.asked + 1 } ∧
        unchangedBut [.regs, .pc, .env] s t) ∧
    (s.env.randomBytes = [] →
      ∃ t, exec (.rnd x nn) s = .next t ∧ t.getV x = .holds (Config.randomByte s.env.asked &&& nn) ∧
        regsUnchangedBut [x] s t ∧ t.pc = s.pc + 2 ∧ t.env = { s.env with asked := s.env.asked + 1 } ∧
        unchangedBut [.regs, .pc, .env] s t)

/-! ### Index register and memory -/

/-- LD I (44_index_memory.md R114): I becomes NNN, zero-extended. -/
def Obligations.LoadIndex : Prop :=
  ∀ (nnn : Addr12) (s : State),
    isWordOf (opNNN 0xA000 nnn) (.ldINnn nnn) ∧
    ∃ t, exec (.ldINnn nnn) s = .next t ∧ t.i = .holds (BitVec.ofNat 16 nnn.toNat) ∧ t.pc = s.pc + 2 ∧
      unchangedBut [.i, .pc] s t

/-- ADD I, Vx (44_index_memory.md R115): the sum modulo 65536, VF unchanged. -/
def Obligations.AddToIndex : Prop :=
  ∀ (x : RegIx) (s : State),
    isWordOf (opX 0xF01E x) (.addIVx x) ∧
    (∀ a v, s.i = .holds a → s.getV x = .holds v →
      ∃ t, exec (.addIVx x) s = .next t ∧ t.i = .holds (BitVec.ofNat 16 ((a.toNat + v.toNat) % 65536)) ∧
        t.pc = s.pc + 2 ∧ unchangedBut [.i, .pc] s t) ∧
    (s.i = .uninitialised → raises (.addIVx x) (opX 0xF01E x) s .uninitialisedRead (.register .i)) ∧
    (∀ a, s.i = .holds a → s.getV x = .uninitialised →
      raises (.addIVx x) (opX 0xF01E x) s .uninitialisedRead (.register (.v x)))

/-- LD F, Vx (44_index_memory.md R116): I becomes five times the low nibble of V[X]. -/
def Obligations.PointAtGlyph : Prop :=
  ∀ (x : RegIx) (s : State),
    isWordOf (opX 0xF029 x) (.ldFVx x) ∧
    (∀ v, s.getV x = .holds v →
      ∃ t a, exec (.ldFVx x) s = .next t ∧ t.i = .holds a ∧ a.toNat = v.toNat % 16 * 5 ∧ t.pc = s.pc + 2 ∧
        unchangedBut [.i, .pc] s t) ∧
    (s.getV x = .uninitialised → raises (.ldFVx x) (opX 0xF029 x) s .uninitialisedRead (.register (.v x)))

/-- LD B, Vx (44_index_memory.md R117): the decimal digits at I, I + 1, I + 2, exact for every value; every other byte of
memory and I unchanged; on a fault no byte is written. -/
def Obligations.StoreDecimalDigits : Prop :=
  ∀ (x : RegIx) (s : State), s.mem.wf →
    isWordOf (opX 0xF033 x) (.ldBVx x) ∧
    (∀ v base, s.getV x = .holds v → s.i = .holds base → (∀ k < 3, dataAccessible (base.toNat + k)) →
      ∃ t, exec (.ldBVx x) s = .next t ∧
        (Memory.byteAt t.mem base.toNat).toNat = v.toNat / 100 ∧
        (Memory.byteAt t.mem (base.toNat + 1)).toNat = v.toNat / 10 % 10 ∧
        (Memory.byteAt t.mem (base.toNat + 2)).toNat = v.toNat % 10 ∧
        memUnchangedOutside base.toNat 3 s t ∧ t.pc = s.pc + 2 ∧ unchangedBut [.mem, .pc] s t) ∧
    (s.getV x = .uninitialised → raises (.ldBVx x) (opX 0xF033 x) s .uninitialisedRead (.register (.v x))) ∧
    (∀ v, s.getV x = .holds v → s.i = .uninitialised →
      raises (.ldBVx x) (opX 0xF033 x) s .uninitialisedRead (.register .i)) ∧
    (∀ v base k, s.getV x = .holds v → s.i = .holds base → k < 3 →
      (∀ j < k, dataAccessible (base.toNat + j)) → ¬dataAccessible (base.toNat + k) →
      raises (.ldBVx x) (opX 0xF033 x) s .memoryAccessFault (.access (base.toNat + k) .write))

/-- LD [I], Vx (44_index_memory.md R118): V[0]..V[X] at I..I + X; every other byte of memory and I unchanged; on a fault no
byte is written, and the faults come in the rule's order. -/
def Obligations.StoreRegisterBlock : Prop :=
  ∀ (x : RegIx) (s : State), s.mem.wf →
    isWordOf (opX 0xF055 x) (.ldMemVx x) ∧
    (∀ base, s.i = .holds base → (∀ r : RegIx, r.toNat ≤ x.toNat → s.getV r ≠ .uninitialised) →
      (∀ k ≤ x.toNat, dataAccessible (base.toNat + k)) →
      ∃ t, exec (.ldMemVx x) s = .next t ∧
        (∀ r : RegIx, r.toNat ≤ x.toNat → s.getV r = .holds (Memory.byteAt t.mem (base.toNat + r.toNat))) ∧
        memUnchangedOutside base.toNat (x.toNat + 1) s t ∧ t.pc = s.pc + 2 ∧ unchangedBut [.mem, .pc] s t) ∧
    (s.i = .uninitialised → raises (.ldMemVx x) (opX 0xF055 x) s .uninitialisedRead (.register .i)) ∧
    (∀ base (r : RegIx), s.i = .holds base → r.toNat ≤ x.toNat → s.getV r = .uninitialised →
      (∀ q : RegIx, q.toNat < r.toNat → s.getV q ≠ .uninitialised) →
      raises (.ldMemVx x) (opX 0xF055 x) s .uninitialisedRead (.register (.v r))) ∧
    (∀ base k, s.i = .holds base → (∀ r : RegIx, r.toNat ≤ x.toNat → s.getV r ≠ .uninitialised) → k ≤ x.toNat →
      (∀ j < k, dataAccessible (base.toNat + j)) → ¬dataAccessible (base.toNat + k) →
      raises (.ldMemVx x) (opX 0xF055 x) s .memoryAccessFault (.access (base.toNat + k) .write))

/-- LD Vx, [I] (44_index_memory.md R119): V[0]..V[X] from I..I + X; memory, I and every other register unchanged; on a fault
no register is written. -/
def Obligations.LoadRegisterBlock : Prop :=
  ∀ (x : RegIx) (s : State),
    isWordOf (opX 0xF065 x) (.ldVxMem x) ∧
    (∀ base, s.i = .holds base → (∀ k ≤ x.toNat, dataAccessible (base.toNat + k)) →
      ∃ t, exec (.ldVxMem x) s = .next t ∧
        (∀ r : RegIx, r.toNat ≤ x.toNat → t.getV r = .holds (Memory.byteAt s.mem (base.toNat + r.toNat))) ∧
        (∀ r : RegIx, x.toNat < r.toNat → t.getV r = s.getV r) ∧ t.pc = s.pc + 2 ∧ unchangedBut [.regs, .pc] s t) ∧
    (s.i = .uninitialised → raises (.ldVxMem x) (opX 0xF065 x) s .uninitialisedRead (.register .i)) ∧
    (∀ base k, s.i = .holds base → k ≤ x.toNat → (∀ j < k, dataAccessible (base.toNat + j)) →
      ¬dataAccessible (base.toNat + k) →
      raises (.ldVxMem x) (opX 0xF065 x) s .memoryAccessFault (.access (base.toNat + k) .read))

/-- A block stored at I is what a block load at I gives back, into any registers, with I unchanged by both
(44_index_memory.md R118, R119; 95_test_vectors.md L1-8). -/
def Obligations.StoredBlockLoadsBack : Prop :=
  ∀ (x : RegIx) (s t u v : State), s.mem.wf → exec (.ldMemVx x) s = .next t → t.run = s.run → faultFree s →
    u.mem = t.mem → u.i = t.i → exec (.ldVxMem x) u = .next v →
    t.i = s.i ∧ v.i = s.i ∧ ∀ r : RegIx, r.toNat ≤ x.toNat → v.getV r = s.getV r

/-- A store into the program region is fetched by the next cycle that reaches it (20_memory.md R60): after a block store, the
word fetched at an address inside the block is the one stored. -/
def Obligations.StoredCodeIsFetched : Prop :=
  ∀ (x : RegIx) (s t u : State) (base : Word) (r : RegIx) (hi lo : Byte), s.mem.wf → faultFree s →
    exec (.ldMemVx x) s = .next t → t.run = s.run → s.i = .holds base → r.toNat + 1 ≤ x.toNat →
    s.getV r = .holds hi → s.getV (r + 1) = .holds lo →
    u.mem = t.mem → u.pc.toNat = base.toNat + r.toNat → fetchAllowed u.pc →
    ∃ op, fetchWord u = .ok op ∧ op.toNat = hi.toNat * 256 + lo.toNat

/-! ### Keys and timers -/

/-- SKP and SKNP (45_keys_timers.md R120, R121, R122): PC + 4 if key V[X] is (is not) pressed, else PC + 2, by a fresh answer of
the environment (its form is the model's choice, log entry 5); a value of 16 or more raises `KeyIndexOutOfRange`. -/
def Obligations.KeySkips : Prop :=
  ∀ (x : RegIx) (s : State),
    isWordOf (opX 0xE09E x) (.skp x) ∧ isWordOf (opX 0xE0A1 x) (.sknp x) ∧
    (∀ b p ps, s.getV x = .holds b → b.toNat ≤ 15 → s.env.keyAnswers = p :: ps →
      (∃ t, exec (.skp x) s = .next t ∧ t.pc = (if p then s.pc + 4 else s.pc + 2) ∧
        t.env = { s.env with keyAnswers := ps, asked := s.env.asked + 1 } ∧ unchangedBut [.pc, .env] s t) ∧
      (∃ t, exec (.sknp x) s = .next t ∧ t.pc = (if p then s.pc + 2 else s.pc + 4) ∧
        t.env = { s.env with keyAnswers := ps, asked := s.env.asked + 1 } ∧ unchangedBut [.pc, .env] s t)) ∧
    (∀ b k, s.getV x = .holds b → b.toNat = k.toNat → s.env.keyAnswers = [] →
      (∃ t, exec (.skp x) s = .next t ∧
        t.pc = (if Config.keyPressed s.env.asked k then s.pc + 4 else s.pc + 2) ∧
        t.env = { s.env with asked := s.env.asked + 1 } ∧ unchangedBut [.pc, .env] s t) ∧
      (∃ t, exec (.sknp x) s = .next t ∧
        t.pc = (if Config.keyPressed s.env.asked k then s.pc + 2 else s.pc + 4) ∧
        t.env = { s.env with asked := s.env.asked + 1 } ∧ unchangedBut [.pc, .env] s t)) ∧
    (s.getV x = .uninitialised →
      raises (.skp x) (opX 0xE09E x) s .uninitialisedRead (.register (.v x)) ∧
      raises (.sknp x) (opX 0xE0A1 x) s .uninitialisedRead (.register (.v x))) ∧
    (∀ b, s.getV x = .holds b → 15 < b.toNat →
      raises (.skp x) (opX 0xE09E x) s .keyIndexOutOfRange (.keyValue b) ∧
      raises (.sknp x) (opX 0xE0A1 x) s .keyIndexOutOfRange (.keyValue b))

/-- LD Vx, DT (45_keys_timers.md R123): V[X] becomes DT, DT unchanged. -/
def Obligations.ReadDelayTimer : Prop :=
  ∀ (x : RegIx) (s : State),
    isWordOf (opX 0xF007 x) (.ldVxDt x) ∧
    ∃ t, exec (.ldVxDt x) s = .next t ∧ t.getV x = .holds s.dt ∧ regsUnchangedBut [x] s t ∧ t.pc = s.pc + 2 ∧
      unchangedBut [.regs, .pc] s t

/-- LD DT, Vx and LD ST, Vx (45_keys_timers.md R124, R125): the timer becomes V[X], the other timer unchanged. -/
def Obligations.WriteTimers : Prop :=
  ∀ (x : RegIx) (s : State),
    isWordOf (opX 0xF015 x) (.ldDtVx x) ∧ isWordOf (opX 0xF018 x) (.ldStVx x) ∧
    (∀ b, s.getV x = .holds b →
      (∃ t, exec (.ldDtVx x) s = .next t ∧ t.dt = b ∧ t.pc = s.pc + 2 ∧ unchangedBut [.dt, .pc] s t) ∧
      (∃ t, exec (.ldStVx x) s = .next t ∧ t.st = b ∧ t.pc = s.pc + 2 ∧ unchangedBut [.st, .pc] s t)) ∧
    (s.getV x = .uninitialised →
      raises (.ldDtVx x) (opX 0xF015 x) s .uninitialisedRead (.register (.v x)) ∧
      raises (.ldStVx x) (opX 0xF018 x) s .uninitialisedRead (.register (.v x)))

/-- LD Vx, K (45_keys_timers.md R126): the machine waits for a key; PC is not advanced and V[X] is not read. -/
def Obligations.KeyWaitBegins : Prop :=
  ∀ (x : RegIx) (s : State),
    isWordOf (opX 0xF00A x) (.ldVxK x) ∧
    ∃ t, exec (.ldVxK x) s = .next t ∧ t.run = .waitKey x ∧ unchangedBut [.run] s t

/-- A `Cycle` in the key wait (40_execution_cycle.md R81): with no key nothing changes but the question used up; with key `k`,
V[x] becomes `k`, PC + 2, and the machine runs. The answer is the environment's next listed one, or the free value when it
lists none (the model's choice, log entry 5). -/
def Obligations.KeyWaitPolls : Prop :=
  ∀ (x : RegIx) (s : State), nextKind s = .cycle → s.run = .waitKey x →
    (∀ ks, s.env.pollAnswers = none :: ks →
      ∃ t, step s = .next t ∧ unchangedBut [.env] s t ∧
        t.env = { s.env with schedule := s.env.schedule.tail, pollAnswers := ks, asked := s.env.asked + 1 }) ∧
    (∀ k ks, s.env.pollAnswers = some k :: ks →
      ∃ t, step s = .next t ∧ t.getV x = .holds (BitVec.ofNat 8 k.toNat) ∧ regsUnchangedBut [x] s t ∧
        t.pc = s.pc + 2 ∧ t.run = .running ∧ unchangedBut [.regs, .pc, .run, .env] s t ∧
        t.env = { s.env with schedule := s.env.schedule.tail, pollAnswers := ks, asked := s.env.asked + 1 }) ∧
    (s.env.pollAnswers = [] →
      ∃ t, step s = .next t ∧
        t.env = { s.env with schedule := s.env.schedule.tail, asked := s.env.asked + 1 } ∧
        (Config.pollKey s.env.asked = none → unchangedBut [.env] s t) ∧
        (∀ k, Config.pollKey s.env.asked = some k → t.getV x = .holds (BitVec.ofNat 8 k.toNat) ∧
          regsUnchangedBut [x] s t ∧ t.pc = s.pc + 2 ∧ t.run = .running ∧ unchangedBut [.regs, .pc, .run, .env] s t))

/-! ### The steps of the environment -/

/-- A `Tick` (60_exceptions.md R137): in `Running` and `WaitKey` both timers count down by one and stop at 0; in the other run
states nothing changes. -/
def Obligations.TickCountsDown : Prop :=
  ∀ s : State, nextKind s = .tick →
    ∃ t, step s = .next t ∧ t.env = { s.env with schedule := s.env.schedule.tail } ∧
      unchangedBut [.dt, .st, .env] s t ∧
      ((s.run = .running ∨ ∃ x, s.run = .waitKey x) →
        t.dt.toNat = s.dt.toNat - 1 ∧ t.st.toNat = s.st.toNat - 1) ∧
      (¬(s.run = .running ∨ ∃ x, s.run = .waitKey x) → t.dt = s.dt ∧ t.st = s.st)

/-- A `Present` (60_exceptions.md R140, R143): the host is handed FB, `dirty` and the register snapshot, and `dirty` is cleared,
in any run state. -/
def Obligations.PresentHandsOverFrame : Prop :=
  ∀ s : State, nextKind s = .present →
    ∃ t regs, step s = .next t ∧ t.dirty = false ∧ unchangedBut [.dirty, .env] s t ∧
      t.env = { s.env with
        schedule := s.env.schedule.tail, received := s.env.received ++ [.frame s.fb s.dirty regs] } ∧
      regs.v = s.v ∧ regs.i = s.i ∧ regs.pc = s.pc ∧ regs.sp = BitVec.ofNat 8 s.stack.length ∧ regs.dt = s.dt ∧
      regs.st = s.st ∧ regs.run = s.run

/-- A `Shutdown` (60_exceptions.md R141): `Running` and `WaitKey` become `Stopped`; otherwise nothing changes. -/
def Obligations.ShutdownStopsTheRun : Prop :=
  ∀ s : State, nextKind s = .shutdown →
    ∃ t, step s = .next t ∧ t.env = { s.env with schedule := s.env.schedule.tail } ∧ unchangedBut [.run, .env] s t ∧
      ((s.run = .running ∨ ∃ x, s.run = .waitKey x) → t.run = .stopped) ∧
      (¬(s.run = .running ∨ ∃ x, s.run = .waitKey x) → t.run = s.run)

/-- A `Load` (70_reset_and_hazards.md R147) of a readable ROM of at most 3248 bytes, in any run state: zeros with the font at 0
and the ROM at 512, PC = 512, an empty stack, timers 0, registers 0 or uninitialised by the parameter, running; FB and
`dirty` unchanged. Any other ROM is reported as LoadError with its length, and no state changes. That an unreadable ROM is reported
with the length of the list the Load carries (log entry 14), and that the report is appended to `received` (log entry 6), are
the model's choices. -/
def Obligations.LoadResetsTheCore : Prop :=
  ∀ (rom : List Byte) (readable : Bool) (s : State), nextKind s = .load rom readable →
    (readable = true → rom.length ≤ 3248 →
      ∃ t, step s = .next t ∧
        (∀ a, (h : a < 80) → Memory.byteAt t.mem a = s.params.font[a]) ∧
        (∀ j, (h : j < rom.length) → Memory.byteAt t.mem (512 + j) = rom[j]) ∧
        (∀ a, 80 ≤ a → ¬(512 ≤ a ∧ a < 512 + rom.length) → Memory.byteAt t.mem a = 0) ∧
        t.pc = 512 ∧ t.stack = [] ∧ t.dt = 0 ∧ t.st = 0 ∧ t.run = .running ∧
        (s.params.regsZeroAtReset = true → (∀ r, t.getV r = .holds 0) ∧ t.i = .holds 0) ∧
        (s.params.regsZeroAtReset = false → (∀ r, t.getV r = .uninitialised) ∧ t.i = .uninitialised) ∧
        t.env = { s.env with schedule := s.env.schedule.tail } ∧
        t.fb = s.fb ∧ t.dirty = s.dirty ∧ t.params = s.params) ∧
    (readable = false ∨ 3248 < rom.length →
      ∃ t, step s = .next t ∧ unchangedBut [.env] s t ∧
        t.env = { s.env with
          schedule := s.env.schedule.tail, received := s.env.received ++ [.loadError rom.length] })

/-- No `Cycle` exists in `Unloaded`, `Faulted` and `Stopped`, and no Tick or Shutdown has an effect there: only Load and Present
follow (40_execution_cycle.md R73). That the missing step is the fault outcome is the model's choice (log entry 3). -/
def Obligations.NoCycleUnlessRunningOrWaiting : Prop :=
  ∀ s : State,
    (nextKind s = .cycle → s.run = .unloaded → step s = .fault .unloaded) ∧
    (∀ r, nextKind s = .cycle → s.run = .faulted r → step s = .fault (.faulted r)) ∧
    (nextKind s = .cycle → s.run = .stopped → step s = .fault .stopped) ∧
    (nextKind s = .tick ∨ nextKind s = .shutdown →
      s.run = .unloaded ∨ (∃ r, s.run = .faulted r) ∨ s.run = .stopped → step s = .next s.dequeued)

/-! ### The whole machine -/

/-- Every instruction has an effect in every state: `exec` never stops and never refuses, since the spec's faults are states
(40_execution_cycle.md R77, R82; 60_exceptions.md R128; log entry 3). -/
def Obligations.EveryInstructionHasAnEffect : Prop :=
  ∀ (i : Instr) (s : State), ∃ t, exec i s = .next t

/-- Faults are precise (60_exceptions.md R128, 40_execution_cycle.md R82): a step that enters `Faulted` changes the run state and
nothing else (but the environment's choice used up), and the record holds PC and the fetched word, none if the fetch failed. -/
def Obligations.FaultsArePrecise : Prop :=
  ∀ (s t : State) (r : FaultRecord), faultFree s → step s = .next t → t.run = .faulted r →
    t = { s.dequeued with run := .faulted r } ∧ runsNext s ∧ r.pc = s.pc ∧
      r.opcode = (if fetchAllowed s.pc then some (wordAt s.mem s.pc) else none)

/-- `Faulted` is terminal (60_exceptions.md R129): no step but a Load leaves it or changes its record, and no step but a Load or a
Present changes anything of the core in it. -/
def Obligations.FaultedIsTerminal : Prop :=
  ∀ (s t : State) (r : FaultRecord), s.run = .faulted r → step s = .next t →
    (∃ rom readable, nextKind s = .load rom readable) ∨
      (t.run = .faulted r ∧ (nextKind s = .present ∨ unchangedBut [.env] s t))

/-- Only CLS and DRW change the framebuffer (10_state.md R33): a step that changes a pixel is a cycle that fetched one of them. -/
def Obligations.OnlyDisplayInstructionsChangePixels : Prop :=
  ∀ (s t : State), step s = .next t → t.fb ≠ s.fb →
    runsNext s ∧ ∃ i, decodeWord (wordAt s.mem s.pc) = .ok i ∧ (i = .cls ∨ ∃ x y n, i = .drw x y n)

/-- Only a Present clears `dirty`, and only CLS and DRW set it (10_state.md R34). -/
def Obligations.DirtyIsClearedByPresentOnly : Prop :=
  ∀ (s t : State), step s = .next t →
    (s.dirty = true → t.dirty = false → nextKind s = .present) ∧
    (s.dirty = false → t.dirty = true →
      runsNext s ∧ ∃ i, decodeWord (wordAt s.mem s.pc) = .ok i ∧ (i = .cls ∨ ∃ x y n, i = .drw x y n))

/-- Between writes the delay timer never increases (70_reset_and_hazards.md R154): a step that raises DT is a cycle that fetched
an FX15; the sound timer likewise with FX18. -/
def Obligations.TimersNeverIncreaseBetweenWrites : Prop :=
  ∀ (s t : State), step s = .next t →
    (s.dt.toNat < t.dt.toNat → runsNext s ∧ ∃ x, decodeWord (wordAt s.mem s.pc) = .ok (.ldDtVx x)) ∧
    (s.st.toNat < t.st.toNat → runsNext s ∧ ∃ x, decodeWord (wordAt s.mem s.pc) = .ok (.ldStVx x))

/-- No instruction reads the sound timer or `dirty` (10_state.md R30, R34): in two states that differ in nothing else, the same
instruction leads to states that differ in nothing else. -/
def Obligations.SoundTimerAndDirtyAreUnread : Prop :=
  ∀ (i : Instr) (s : State) (b : Byte) (d : Bool) (t : State), exec i s = .next t →
    ∃ u, exec i ((s.setSt b).setDirty d) = .next u ∧ (u.setSt t.st).setDirty t.dirty = t

/-- Every step keeps memory canonical, with only bytes that programs may access differing from what Load leaves
(20_memory.md R45, R47, R49). -/
def Obligations.StepKeepsMemoryCanonical : Prop :=
  ∀ (s t : State), memoryInv s → step s = .next t → memoryInv t

/-- Every step keeps the machine's invariant: memory, the stack's 48 addresses, PC below 4351, a key wait at its own FX0A, and a
fault record that names the instruction (10_state.md R28, R36; 40_execution_cycle.md R80, R81; 60_exceptions.md R128). -/
def Obligations.StepKeepsInvariant : Prop :=
  ∀ (s t : State), s.Inv → step s = .next t → t.Inv

/-- The invariant holds at the model's reset state (log entries 1, 2) and at every power-on. -/
def Obligations.ResetAndPowerOnMeetInvariant : Prop :=
  State.reset.Inv ∧ ∀ s : State, atPowerOn s → s.Inv

/-- With `REGS_ZERO_AT_RESET` true, no step uninitialises a register and no cycle raises `UninitialisedRead` (60_exceptions.md
R131). -/
def Obligations.NoUninitialisedReadWithZeroedRegisters : Prop :=
  ∀ (s t : State), allInitialised s → step s = .next t →
    allInitialised t ∧ ∀ r, faultFree s → t.run = .faulted r → r.code ≠ .uninitialisedRead

/-- A permitted write is read back at its address and leaves every other address as it was; a forbidden one raises
`MemoryAccessFault`, and so does the read there (20_memory.md R49). -/
def Obligations.DataAccessesAreChecked : Prop :=
  ∀ (m : Memory) (a : Nat) (v : Byte), m.wf →
    ((a < 80 ∨ (512 ≤ a ∧ a < 3760) ∨ (3856 ≤ a ∧ a < 4096)) →
      memRead m a = .ok (Memory.byteAt m a) ∧
      ∃ m', memWrite m a v = .ok m' ∧ m'.wf ∧ memRead m' a = .ok v ∧
        ∀ b, b ≠ a → Memory.byteAt m' b = Memory.byteAt m b) ∧
    (¬(a < 80 ∨ (512 ≤ a ∧ a < 3760) ∨ (3856 ≤ a ∧ a < 4096)) →
      memRead m a = .error { code := .memoryAccessFault, info := .access a .read } ∧
      memWrite m a v = .error { code := .memoryAccessFault, info := .access a .write })

/-- The unspecified contents at power-on are never observed (70_reset_and_hazards.md R146): two machines at power-on with the
same parameters and the same environment are the same after a Load that succeeds. -/
def Obligations.PowerOnContentsAreNotObserved : Prop :=
  ∀ (s s' t t' : State) (rom : List Byte), atPowerOn s → atPowerOn s' → s.params = s'.params → s.env = s'.env →
    nextKind s = .load rom true → rom.length ≤ 3248 → step s = .next t → step s' = .next t' → t = t'

/-- The same sprite drawn twice at the same place restores every pixel; the second draw collides exactly if the sprite covers a
pixel that was off before the first (41_display.md R90's pseudocode, 95_test_vectors.md L1-4; log entry 12 on the words "whenever
the sprite has any 1 bit"). The second draw may start from any state with the same frame, memory and operands. -/
def Obligations.DoubleDrawRestoresPixels : Prop :=
  ∀ (x y : RegIx) (n : Nibble) (s t u v : State) (a b : Byte) (base : Word),
    n ≠ 0#4 → s.getV x = .holds a → s.getV y = .holds b → s.i = .holds base →
    (∀ r < n.toNat, dataAccessible (base.toNat + r)) → exec (.drw x y n) s = .next t →
    u.fb = t.fb → u.mem = t.mem → u.i = t.i → u.getV x = .holds a → u.getV y = .holds b →
    exec (.drw x y n) u = .next v →
    v.fb = s.fb ∧
      (v.getV 15#4 = .holds 1 ↔ ∃ px py,
        spriteCovers s.mem base.toNat n.toNat (a.toNat % 64) (b.toNat % 32) px py ∧ s.fb.pixel px py = false)

/-- The state after reset is the one a Load of the empty ROM leaves at any power-on with the reset's parameters and an empty
environment: PC 0x200, an empty stack, timers 0, running (70_reset_and_hazards.md R147, R148). That the registers hold 0, and
that reset is this Load, are the model's choices (log entries 1, 2). -/
def Obligations.ResetIsLoadOfTheEmptyRom : Prop :=
  (∀ s : State, atPowerOn s → s.params = State.reset.params → s.env = State.reset.env →
    load [] true s = State.reset) ∧
  State.reset.pc = 0x200 ∧ State.reset.stack = [] ∧ State.reset.dt = 0 ∧ State.reset.st = 0 ∧
  State.reset.run = .running ∧ State.reset.dirty = false
end

