-- ==== Sys2Proof/Laws/Encoding.lean ====
section
/-! SUPPORT. Words and fields as numbers (30_encoding.md R63): what each builder of the encoder makes, what each field reads,
each field of each built word, and the words as the rules write them. -/

namespace Sys2Proof

variable (f : Nibble) (x y : RegIx) (n : Nibble) (nn : Byte) (nnn : Addr12) (op : Word)

/-! ### Words as numbers -/

theorem toNat_wordXYN :
    (wordXYN f x y n).toNat = f.toNat * 4096 + x.toNat * 256 + y.toNat * 16 + n.toNat := by
  show (f ++ x ++ y ++ n).toNat = _
  have := f.isLt; have := x.isLt; have := y.isLt; have := n.isLt
  rw [BitVec.toNat_append, BitVec.toNat_append, BitVec.toNat_append,
    ← Nat.shiftLeft_add_eq_or_of_lt (by assumption), ← Nat.shiftLeft_add_eq_or_of_lt (by assumption),
    ← Nat.shiftLeft_add_eq_or_of_lt (by assumption)]
  simp only [Nat.shiftLeft_eq]; omega

theorem toNat_wordXNN : (wordXNN f x nn).toNat = f.toNat * 4096 + x.toNat * 256 + nn.toNat := by
  show (f ++ x ++ nn).toNat = _
  have := f.isLt; have := x.isLt; have := nn.isLt
  rw [BitVec.toNat_append, BitVec.toNat_append, ← Nat.shiftLeft_add_eq_or_of_lt (by assumption),
    ← Nat.shiftLeft_add_eq_or_of_lt (by assumption)]
  simp only [Nat.shiftLeft_eq]; omega

theorem toNat_wordNNN : (wordNNN f nnn).toNat = f.toNat * 4096 + nnn.toNat := by
  show (f ++ nnn).toNat = _
  have := nnn.isLt
  rw [BitVec.toNat_append, ← Nat.shiftLeft_add_eq_or_of_lt (by assumption), Nat.shiftLeft_eq]

theorem toNat_wordOfBytes (hi lo : Byte) : (wordOfBytes hi lo).toNat = hi.toNat * 256 + lo.toNat := by
  show (hi ++ lo).toNat = _
  have := lo.isLt
  rw [BitVec.toNat_append, ← Nat.shiftLeft_add_eq_or_of_lt (by assumption), Nat.shiftLeft_eq]

/-! ### Fields as numbers -/

theorem toNat_fieldF : (fieldF op).toNat = op.toNat / 4096 := by
  have := op.isLt
  simp [fieldF, BitVec.extractLsb'_toNat, Nat.shiftRight_eq_div_pow]; omega

theorem toNat_fieldX : (fieldX op).toNat = op.toNat / 256 % 16 := by
  simp [fieldX, BitVec.extractLsb'_toNat, Nat.shiftRight_eq_div_pow]

theorem toNat_fieldY : (fieldY op).toNat = op.toNat / 16 % 16 := by
  simp [fieldY, BitVec.extractLsb'_toNat, Nat.shiftRight_eq_div_pow]

theorem toNat_fieldN : (fieldN op).toNat = op.toNat % 16 := by
  simp [fieldN, BitVec.extractLsb'_toNat, Nat.shiftRight_eq_div_pow]

theorem toNat_fieldNN : (fieldNN op).toNat = op.toNat % 256 := by
  simp [fieldNN, BitVec.extractLsb'_toNat, Nat.shiftRight_eq_div_pow]

theorem toNat_fieldNNN : (fieldNNN op).toNat = op.toNat % 4096 := by
  simp [fieldNNN, BitVec.extractLsb'_toNat, Nat.shiftRight_eq_div_pow]

/-! ### The fields of the words built -/

@[simp] theorem fieldF_wordXYN : fieldF (wordXYN f x y n) = f := by
  apply BitVec.eq_of_toNat_eq; rw [toNat_fieldF, toNat_wordXYN]; omega

@[simp] theorem fieldX_wordXYN : fieldX (wordXYN f x y n) = x := by
  apply BitVec.eq_of_toNat_eq; rw [toNat_fieldX, toNat_wordXYN]; omega

@[simp] theorem fieldY_wordXYN : fieldY (wordXYN f x y n) = y := by
  apply BitVec.eq_of_toNat_eq; rw [toNat_fieldY, toNat_wordXYN]; omega

@[simp] theorem fieldN_wordXYN : fieldN (wordXYN f x y n) = n := by
  apply BitVec.eq_of_toNat_eq; rw [toNat_fieldN, toNat_wordXYN]; omega

@[simp] theorem fieldF_wordXNN : fieldF (wordXNN f x nn) = f := by
  apply BitVec.eq_of_toNat_eq; rw [toNat_fieldF, toNat_wordXNN]; omega

@[simp] theorem fieldX_wordXNN : fieldX (wordXNN f x nn) = x := by
  apply BitVec.eq_of_toNat_eq; rw [toNat_fieldX, toNat_wordXNN]; omega

@[simp] theorem fieldNN_wordXNN : fieldNN (wordXNN f x nn) = nn := by
  apply BitVec.eq_of_toNat_eq; rw [toNat_fieldNN, toNat_wordXNN]; omega

@[simp] theorem fieldF_wordNNN : fieldF (wordNNN f nnn) = f := by
  apply BitVec.eq_of_toNat_eq; rw [toNat_fieldF, toNat_wordNNN]; omega

@[simp] theorem fieldNNN_wordNNN : fieldNNN (wordNNN f nnn) = nnn := by
  apply BitVec.eq_of_toNat_eq; rw [toNat_fieldNNN, toNat_wordNNN]; omega

/-! ### A word is built from its fields -/

theorem wordXYN_fields : wordXYN (fieldF op) (fieldX op) (fieldY op) (fieldN op) = op := by
  apply BitVec.eq_of_toNat_eq
  rw [toNat_wordXYN, toNat_fieldF, toNat_fieldX, toNat_fieldY, toNat_fieldN]; omega

theorem wordXNN_fields : wordXNN (fieldF op) (fieldX op) (fieldNN op) = op := by
  apply BitVec.eq_of_toNat_eq
  rw [toNat_wordXNN, toNat_fieldF, toNat_fieldX, toNat_fieldNN]; omega

theorem wordNNN_fields : wordNNN (fieldF op) (fieldNNN op) = op := by
  apply BitVec.eq_of_toNat_eq
  rw [toNat_wordNNN, toNat_fieldF, toNat_fieldNNN]; omega

namespace Machine

/-! ### The words as the rules write them -/

/-- `F000 | X << 8 | NN` is the word of the three fields. -/
theorem opXNN_eq_wordXNN : opXNN (wordXNN f 0 0) x nn = wordXNN f x nn := by
  apply BitVec.eq_of_toNat_eq
  have := f.isLt; have hx := x.isLt; have hn := nn.isLt
  have h1 : x.toNat <<< 8 < 2 ^ 12 := by rw [Nat.shiftLeft_eq]; omega
  have h2 : (f.toNat * 4096 ||| x.toNat <<< 8) = (f.toNat * 16 + x.toNat) <<< 8 := by
    rw [show f.toNat * 4096 = f.toNat <<< 12 by rw [Nat.shiftLeft_eq], ← Nat.shiftLeft_add_eq_or_of_lt h1]
    simp only [Nat.shiftLeft_eq]; omega
  have h3 : x.toNat <<< 8 % 65536 = x.toNat <<< 8 := Nat.mod_eq_of_lt (by omega)
  have h4 : x.toNat % 65536 = x.toNat := Nat.mod_eq_of_lt (by omega)
  have h5 : nn.toNat % 65536 = nn.toNat := Nat.mod_eq_of_lt (by omega)
  simp only [opXNN, BitVec.toNat_or, BitVec.toNat_shiftLeft, BitVec.toNat_setWidth, toNat_wordXNN, BitVec.ofNat_eq_ofNat, BitVec.toNat_ofNat,
    Nat.reducePow, Nat.zero_mod, Nat.add_zero, Nat.zero_mul, h3, h4, h5, h2]
  rw [← Nat.shiftLeft_add_eq_or_of_lt hn]
  simp only [Nat.shiftLeft_eq]; omega

/-- `F000 | NNN` is the word of the two fields. -/
theorem opNNN_eq_wordNNN : opNNN (wordNNN f 0) nnn = wordNNN f nnn := by
  apply BitVec.eq_of_toNat_eq
  have := f.isLt; have hn := nnn.isLt
  have h5 : nnn.toNat % 65536 = nnn.toNat := Nat.mod_eq_of_lt (by omega)
  simp only [opNNN, BitVec.toNat_or, BitVec.toNat_setWidth, toNat_wordNNN, BitVec.ofNat_eq_ofNat, BitVec.toNat_ofNat,
    Nat.reducePow, Nat.zero_mod, Nat.add_zero, h5]
  rw [show f.toNat * 4096 = f.toNat <<< 12 by rw [Nat.shiftLeft_eq], ← Nat.shiftLeft_add_eq_or_of_lt hn]

/-- `F0NN | X << 8` is the word of the three fields. -/
theorem opX_eq_wordXNN : opX (wordXNN f 0 nn) x = wordXNN f x nn := by
  rw [← opXNN_eq_wordXNN f x nn, ← opXNN_eq_wordXNN f 0 nn]
  simp only [opXNN, opX, BitVec.or_assoc]
  rw [BitVec.or_comm (nn.setWidth 16)]
  simp

/-- `F00N | X << 8 | Y << 4` is the word of the four fields. -/
theorem opXY_eq_wordXYN : opXY (wordXYN f 0 0 n) x y = wordXYN f x y n := by
  have hw : ∀ (a b c d : Nibble), wordXYN a b c d = wordXNN a b (c ++ d) := fun a b c d => by
    apply BitVec.eq_of_toNat_eq
    have := d.isLt
    rw [toNat_wordXYN, toNat_wordXNN, BitVec.toNat_append, ← Nat.shiftLeft_add_eq_or_of_lt (by assumption),
      Nat.shiftLeft_eq]; omega
  have hb : ∀ c d : Nibble, (c ++ d : Byte).setWidth 16 = (c.setWidth 16 <<< 4) ||| d.setWidth 16 := fun c d => by
    apply BitVec.eq_of_toNat_eq
    have := c.isLt; have := d.isLt
    rw [BitVec.toNat_setWidth, BitVec.toNat_append, BitVec.toNat_or, BitVec.toNat_shiftLeft, BitVec.toNat_setWidth,
      BitVec.toNat_setWidth, ← Nat.shiftLeft_add_eq_or_of_lt (by assumption)]
    rw [Nat.mod_eq_of_lt (a := c.toNat) (by omega), Nat.mod_eq_of_lt (a := d.toNat) (by omega),
      Nat.mod_eq_of_lt (a := c.toNat <<< 4) (by rw [Nat.shiftLeft_eq]; omega),
      ← Nat.shiftLeft_add_eq_or_of_lt (by assumption), Nat.mod_eq_of_lt]
    rw [Nat.shiftLeft_eq]; omega
  rw [hw, hw, ← opXNN_eq_wordXNN f x, ← opXNN_eq_wordXNN f 0]
  simp only [opXNN, opXY, hb, BitVec.or_assoc]
  rw [BitVec.or_comm (n.setWidth 16)]
  simp [BitVec.or_assoc]

/-- `F000 | X << 8 | Y << 4 | N` is the word of the four fields. -/
theorem opXY_or_eq_wordXYN : opXY (wordXYN f 0 0 0) x y ||| n.setWidth 16 = wordXYN f x y n := by
  rw [opXY_eq_wordXYN]
  apply BitVec.eq_of_getLsbD_eq
  intro i hi
  simp only [wordXYN, BitVec.getLsbD_or, BitVec.getLsbD_append, BitVec.getLsbD_setWidth]
  by_cases h : i < 4
  · simp [h]; omega
  · simp [h, BitVec.getLsbD_of_ge n i (by omega)]

end Machine

end Sys2Proof
end

