-- ==== Sys2Proof/Laws/Memory.lean ====
section
/-! SUPPORT. The laws of memory: a read after a write, what a write leaves alone, and that every operation keeps the
canonical form. -/

namespace Sys2Proof.Machine

/-! ### Reads after writes -/

/-- A cell put first is what its own address reads as, whichever way it is held. -/
theorem Memory.byteAt_cellThen (a b : Nat) (v : Byte) (rest : Memory)
    (h : a = b → v = Memory.unlisted a → Memory.byteAt rest b = v) :
    Memory.byteAt (Memory.cellThen a v rest) b = if b = a then v else Memory.byteAt rest b := by
  unfold Memory.cellThen
  by_cases hv : v = Memory.unlisted a
  · by_cases hb : b = a
    · rw [if_pos hv, if_pos hb]; exact h hb.symm hv
    · rw [if_pos hv, if_neg hb]
  · rw [if_neg hv]; rfl

/-- An address below every listed one reads as unlisted. -/
theorem Memory.byteAt_of_lt_all (m : Memory) (a : Nat) (h : ∀ c ∈ m, a < c.1) :
    Memory.byteAt m a = Memory.unlisted a := by
  induction m with
  | nil => rfl
  | cons c rest ih =>
    have hc := h c (by simp)
    rw [Memory.byteAt, if_neg (by omega)]
    exact ih fun d hd => h d (by simp [hd])

/-- A read after a write in rising memory: the address written reads as the value, every other address as before. -/
theorem Memory.byteAt_put (m : Memory) (hm : m.Pairwise (fun c d => c.1 < d.1)) (a b : Nat) (v : Byte) :
    Memory.byteAt (Memory.put m a v) b = if b = a then v else Memory.byteAt m b := by
  induction m with
  | nil =>
    rw [Memory.put, Memory.byteAt_cellThen]
    intro hab hv; rw [← hab, hv]; rfl
  | cons c rest ih =>
    obtain ⟨k, w⟩ := c
    obtain ⟨hlow, hrest⟩ := List.pairwise_cons.1 hm
    rw [Memory.put]
    split
    · rename_i hlt
      rw [Memory.byteAt_cellThen]
      intro hab hv
      rw [← hab, hv]
      refine Memory.byteAt_of_lt_all _ _ fun d hd => ?_
      rcases List.mem_cons.1 hd with rfl | hd
      · exact hlt
      · exact Nat.lt_trans hlt (hlow d hd)
    · split
      · rename_i heq
        subst heq
        rw [Memory.byteAt_cellThen]
        · by_cases hb : b = a
          · rw [if_pos hb, if_pos hb]
          · rw [if_neg hb, if_neg hb, Memory.byteAt, if_neg hb]
        · intro hab hv
          rw [← hab, hv]
          exact Memory.byteAt_of_lt_all _ _ hlow
      · rename_i hne
        rw [Memory.byteAt, ih hrest, Memory.byteAt]
        by_cases hb : b = k
        · rw [if_pos hb, if_neg (by omega), if_pos hb]
        · rw [if_neg hb, if_neg hb]

/-! ### The canonical form -/

/-- The cells of a memory after a write are old cells or the one written, and the address written is then no default. -/
theorem Memory.mem_put {m : Memory} {a : Nat} {v : Byte} {c : Host.Cell} (h : c ∈ Memory.put m a v) :
    c ∈ m ∨ (c = (a, v) ∧ v ≠ Memory.unlisted a) := by
  have hcell : ∀ rest : Memory, c ∈ Memory.cellThen a v rest → c ∈ rest ∨ (c = (a, v) ∧ v ≠ Memory.unlisted a) := by
    intro rest hc
    unfold Memory.cellThen at hc
    split at hc
    · exact .inl hc
    · rename_i hv
      rcases List.mem_cons.1 hc with rfl | hc
      · exact .inr ⟨rfl, hv⟩
      · exact .inl hc
  induction m with
  | nil => exact hcell [] h
  | cons d rest ih =>
    obtain ⟨k, w⟩ := d
    rw [Memory.put] at h
    split at h
    · exact hcell _ h
    · split at h
      · rcases hcell _ h with h | h
        · exact .inl (List.mem_cons_of_mem _ h)
        · exact .inr h
      · rcases List.mem_cons.1 h with rfl | h
        · exact .inl (by simp)
        · rcases ih h with h | h
          · exact .inl (List.mem_cons_of_mem _ h)
          · exact .inr h

/-- A cell put before cells of higher addresses keeps them rising. -/
theorem Memory.cellThen_rising {a : Nat} {v : Byte} {rest : Memory} (hr : rest.Pairwise (fun c d => c.1 < d.1))
    (h : ∀ c ∈ rest, a < c.1) : (Memory.cellThen a v rest).Pairwise (fun c d => c.1 < d.1) := by
  unfold Memory.cellThen
  split
  · exact hr
  · exact List.pairwise_cons.2 ⟨h, hr⟩

/-- A write keeps addresses strictly rising. -/
theorem Memory.put_rising (m : Memory) (hm : m.Pairwise (fun c d => c.1 < d.1)) (a : Nat) (v : Byte) :
    (Memory.put m a v).Pairwise (fun c d => c.1 < d.1) := by
  induction m with
  | nil => exact Memory.cellThen_rising List.Pairwise.nil (by simp)
  | cons d rest ih =>
    obtain ⟨k, w⟩ := d
    obtain ⟨hlow, hrest⟩ := List.pairwise_cons.1 hm
    rw [Memory.put]
    split
    · rename_i hlt
      refine Memory.cellThen_rising hm fun c hc => ?_
      rcases List.mem_cons.1 hc with rfl | hc
      · exact hlt
      · exact Nat.lt_trans hlt (hlow c hc)
    · split
      · rename_i heq
        exact Memory.cellThen_rising hrest (heq ▸ hlow)
      · refine List.pairwise_cons.2 ⟨fun c hc => ?_, ih hrest⟩
        rcases Memory.mem_put hc with hc | ⟨rfl, -⟩
        · exact hlow c hc
        · show k < a; omega

/-- A write inside the 4096 bytes keeps the canonical form. -/
theorem Memory.wf_put {m : Memory} (hm : m.wf) {a : Nat} (ha : a < 4096) (v : Byte) : (Memory.put m a v).wf := by
  refine ⟨Memory.put_rising m hm.1 a v, fun c hc => ?_⟩
  rcases Memory.mem_put hc with hc | ⟨rfl, hv⟩
  · exact hm.2 c hc
  · exact ⟨ha, hv⟩

/-- The empty memory is canonical. -/
theorem Memory.wf_nil : Memory.wf [] := by simp [Memory.wf]

/-- A block copy inside the 4096 bytes keeps the canonical form. -/
theorem Memory.wf_putAll (bs : List Byte) : ∀ (a : Nat) (m : Memory), m.wf → a + bs.length ≤ 4096 →
    (Memory.putAll a bs m).wf := by
  induction bs with
  | nil => intro a m hm _; exact hm
  | cons b bs ih =>
    intro a m hm ha
    rw [List.length_cons] at ha
    exact Memory.wf_put (ih (a + 1) m hm (by omega)) (by omega) b

/-- A read after a block copy: the copied byte inside the block, what was there before outside it. -/
theorem Memory.byteAt_putAll (bs : List Byte) : ∀ (a : Nat) (m : Memory), m.wf → a + bs.length ≤ 4096 → ∀ b,
    Memory.byteAt (Memory.putAll a bs m) b =
      if h : a ≤ b ∧ b < a + bs.length then bs[b - a]'(by omega) else Memory.byteAt m b := by
  induction bs with
  | nil => intro a m _ _ b; simp [Memory.putAll]
  | cons v bs ih =>
    intro a m hm ha b
    rw [List.length_cons] at ha
    rw [Memory.putAll, Memory.byteAt_put _ (Memory.wf_putAll bs (a + 1) m hm (by omega)).1, ih _ _ hm (by omega)]
    by_cases h1 : b = a
    · subst h1; simp
    · rw [if_neg h1]
      by_cases h2 : a + 1 ≤ b ∧ b < a + 1 + bs.length
      · have h3 : a ≤ b ∧ b < a + (v :: bs).length := by simp; omega
        rw [dif_pos h2, dif_pos h3]
        have h4 : b - a = (b - (a + 1)) + 1 := by omega
        simp [h4]
      · have h3 : ¬(a ≤ b ∧ b < a + (v :: bs).length) := by simp; omega
        rw [dif_neg h2, dif_neg h3]

/-- The cells of a memory after a block copy are old cells or lie in the block. -/
theorem Memory.mem_putAll (bs : List Byte) : ∀ (a : Nat) (m : Memory), ∀ c ∈ Memory.putAll a bs m,
    c ∈ m ∨ (a ≤ c.1 ∧ c.1 < a + bs.length) := by
  induction bs with
  | nil => intro a m c hc; exact .inl hc
  | cons v bs ih =>
    intro a m c hc
    rcases Memory.mem_put hc with hc | ⟨rfl, -⟩
    · rcases ih _ _ c hc with hc | hc
      · exact .inl hc
      · exact .inr (by rw [List.length_cons]; omega)
    · exact .inr ⟨Nat.le_refl a, by simp⟩

/-! ### The checked accesses (20_memory.md R49) -/

/-- All a checked read can do: answer the byte of an accessible address, or raise `MemoryAccessFault`. -/
theorem memRead_eq_ok_iff {m : Memory} {a : Nat} {b : Byte} :
    memRead m a = .ok b ↔ dataAccessible a ∧ Memory.byteAt m a = b := by
  unfold memRead; split <;> simp_all

/-- All a checked write can do: write an accessible address, or raise `MemoryAccessFault`. -/
theorem memWrite_eq_ok_iff {m m' : Memory} {a : Nat} {v : Byte} :
    memWrite m a v = .ok m' ↔ dataAccessible a ∧ Memory.put m a v = m' := by
  unfold memWrite; split <;> simp_all

/-- A write that was permitted is read back, and leaves every other address as it was. -/
theorem byteAt_of_memWrite {m m' : Memory} (hm : m.wf) {a : Nat} {v : Byte} (h : memWrite m a v = .ok m') (b : Nat) :
    Memory.byteAt m' b = if b = a then v else Memory.byteAt m b := by
  obtain ⟨-, rfl⟩ := memWrite_eq_ok_iff.1 h
  exact Memory.byteAt_put m hm.1 a b v

/-- A permitted write keeps the canonical form. -/
theorem wf_of_memWrite {m m' : Memory} (hm : m.wf) {a : Nat} {v : Byte} (h : memWrite m a v = .ok m') : m'.wf := by
  obtain ⟨ha, rfl⟩ := memWrite_eq_ok_iff.1 h
  exact Memory.wf_put hm (by omega) v

/-- All a block read can do when it answers: every address of it is accessible, and its bytes are the ones there. -/
theorem readBytes_eq_ok_iff (m : Memory) : ∀ (n a : Nat) (bs : List Byte),
    readBytes m a n = .ok bs ↔
      (∀ k < n, dataAccessible (a + k)) ∧ bs = (List.range n).map (fun k => Memory.byteAt m (a + k)) := by
  intro n
  induction n with
  | zero =>
    intro a bs
    simp only [readBytes, Except.ok.injEq, List.range_zero, List.map_nil]
    constructor
    · intro h; exact ⟨fun k hk => absurd hk (Nat.not_lt_zero k), h.symm⟩
    · intro h; exact h.2.symm
  | succ n ih =>
    intro a bs
    rw [List.range_succ_eq_map, List.map_cons, List.map_map]
    have hmap : (List.range n).map ((fun k => Memory.byteAt m (a + k)) ∘ Nat.succ)
        = (List.range n).map (fun k => Memory.byteAt m (a + 1 + k)) := by
      refine List.map_congr_left fun k _ => ?_
      show Memory.byteAt m (a + (k + 1)) = _
      congr 1; omega
    rw [hmap]
    have hacc : (∀ k < n + 1, dataAccessible (a + k)) ↔ dataAccessible a ∧ ∀ k < n, dataAccessible (a + 1 + k) := by
      constructor
      · intro h
        exact ⟨h 0 (by omega), fun k hk => by have := h (k + 1) (by omega); rwa [show a + 1 + k = a + (k + 1) by omega]⟩
      · rintro ⟨h0, h⟩ k hk
        cases k with
        | zero => exact h0
        | succ k => have := h k (by omega); rwa [show a + (k + 1) = a + 1 + k by omega]
    rw [hacc]
    simp only [readBytes, bind, Except.bind, pure, Except.pure]
    cases h1 : memRead m a with
    | error e =>
      have hna : ¬dataAccessible a := fun ha => by simp [memRead, ha] at h1
      simp [hna]
    | ok b =>
      obtain ⟨ha, rfl⟩ := memRead_eq_ok_iff.1 h1
      cases h2 : readBytes m (a + 1) n with
      | error e =>
        have hn : ¬∀ k < n, dataAccessible (a + 1 + k) := fun hall => by
          have := (ih (a + 1) _).2 ⟨hall, rfl⟩
          rw [h2] at this; exact absurd this (by simp)
        simp only [reduceCtorEq, false_iff]
        exact fun h => hn h.1.2
      | ok cs =>
        obtain ⟨hall, hcs⟩ := (ih (a + 1) cs).1 h2
        simp only [Except.ok.injEq]
        constructor
        · intro h; exact ⟨⟨ha, hall⟩, by rw [← h, hcs]; rfl⟩
        · intro h; rw [h.2, hcs]; rfl

/-- A block write whose addresses are all accessible answers the memory of the writes one after another. -/
theorem writeBytes_ok (bs : List Byte) : ∀ (m : Memory) (a : Nat), (∀ k < bs.length, dataAccessible (a + k)) →
    ∃ m', writeBytes m a bs = .ok m' := by
  induction bs with
  | nil => intro m a _; exact ⟨m, rfl⟩
  | cons b bs ih =>
    intro m a h
    have h0 := h 0 (by simp)
    rw [Nat.add_zero] at h0
    obtain ⟨m', hm'⟩ := ih (Memory.put m a b) (a + 1) fun k hk => by
      have := h (k + 1) (by simpa using hk)
      rwa [show a + 1 + k = a + (k + 1) by omega]
    exact ⟨m', by simpa [writeBytes, memWrite, h0, bind, Except.bind] using hm'⟩

/-- All a block write can do when it answers: every address of it is accessible, memory stays canonical, the block reads
as the bytes written, and every address outside it reads as before. -/
theorem writeBytes_spec (bs : List Byte) : ∀ (m m' : Memory) (a : Nat), m.wf → writeBytes m a bs = .ok m' →
    (∀ k < bs.length, dataAccessible (a + k)) ∧ m'.wf ∧
      ∀ b, Memory.byteAt m' b =
        if h : a ≤ b ∧ b < a + bs.length then bs[b - a]'(by omega) else Memory.byteAt m b := by
  induction bs with
  | nil =>
    intro m m' a hm h
    cases h
    exact ⟨fun k hk => absurd hk (Nat.not_lt_zero k), hm, fun b => by
      rw [dif_neg (by simp)]⟩
  | cons v bs ih =>
    intro m m' a hm h
    simp only [writeBytes, bind, Except.bind] at h
    cases h1 : memWrite m a v with
    | error e => rw [h1] at h; simp at h
    | ok m1 =>
      rw [h1] at h
      have ha := (memWrite_eq_ok_iff.1 h1).1
      obtain ⟨hacc, hwf, hread⟩ := ih m1 m' (a + 1) (wf_of_memWrite hm h1) h
      refine ⟨fun k hk => ?_, hwf, fun b => ?_⟩
      · cases k with
        | zero => exact ha
        | succ k =>
          have := hacc k (by simpa using hk)
          rwa [show a + 1 + k = a + (k + 1) by omega] at this
      · rw [hread b, byteAt_of_memWrite hm h1 b]
        by_cases e1 : b = a
        · subst e1; simp
        · rw [if_neg e1]
          by_cases e2 : a + 1 ≤ b ∧ b < a + 1 + bs.length
          · have e3 : a ≤ b ∧ b < a + (v :: bs).length := by simp; omega
            rw [dif_pos e2, dif_pos e3]
            have e4 : b - a = (b - (a + 1)) + 1 := by omega
            simp [e4]
          · have e3 : ¬(a ≤ b ∧ b < a + (v :: bs).length) := by simp; omega
            rw [dif_neg e2, dif_neg e3]

/-- A block write adds cells at its own addresses only. -/
theorem mem_of_writeBytes (bs : List Byte) : ∀ (m m' : Memory) (a : Nat), writeBytes m a bs = .ok m' →
    ∀ c ∈ m', c ∈ m ∨ dataAccessible c.1 := by
  induction bs with
  | nil => intro m m' a h c hc; cases h; exact .inl hc
  | cons v bs ih =>
    intro m m' a h c hc
    simp only [writeBytes, bind, Except.bind] at h
    cases h1 : memWrite m a v with
    | error e => rw [h1] at h; simp at h
    | ok m1 =>
      rw [h1] at h
      obtain ⟨ha, rfl⟩ := memWrite_eq_ok_iff.1 h1
      rcases ih _ m' (a + 1) h c hc with hc | hc
      · rcases Memory.mem_put hc with hc | ⟨rfl, -⟩
        · exact .inl hc
        · exact .inr ha
      · exact .inr hc

/-- A block write raises the fault of its first inaccessible address, and nothing of it lands (20_memory.md R50). -/
theorem writeBytes_error (bs : List Byte) : ∀ (m : Memory) (a k : Nat), k < bs.length →
    (∀ j < k, dataAccessible (a + j)) → ¬dataAccessible (a + k) →
    writeBytes m a bs = .error (accessTrap (a + k) .write) := by
  induction bs with
  | nil => intro m a k hk; simp at hk
  | cons b bs ih =>
    intro m a k hk hj hn
    cases k with
    | zero =>
      have hn' : ¬dataAccessible a := hn
      simp [writeBytes, memWrite, hn', bind, Except.bind]
    | succ k =>
      have h0 : dataAccessible a := hj 0 (by omega)
      have hs : ∀ j, a + 1 + j = a + (j + 1) := fun j => by omega
      have := ih (Memory.put m a b) (a + 1) k (by simpa using hk)
        (fun j h => by rw [hs]; exact hj (j + 1) (by omega)) (by rwa [hs])
      simp [writeBytes, memWrite, h0, bind, Except.bind, this, hs]

/-- A block read raises the fault of its first inaccessible address (20_memory.md R50). -/
theorem readBytes_error (m : Memory) : ∀ (n a k : Nat), k < n → (∀ j < k, dataAccessible (a + j)) →
    ¬dataAccessible (a + k) → readBytes m a n = .error (accessTrap (a + k) .read) := by
  intro n
  induction n with
  | zero => intro a k hk; simp at hk
  | succ n ih =>
    intro a k hk hj hn
    cases k with
    | zero =>
      have hn' : ¬dataAccessible a := hn
      simp [readBytes, memRead, hn', bind, Except.bind]
    | succ k =>
      have h0 : dataAccessible a := hj 0 (by omega)
      have hs : ∀ j, a + 1 + j = a + (j + 1) := fun j => by omega
      have := ih (a + 1) k (by omega) (fun j h => by rw [hs]; exact hj (j + 1) (by omega)) (by rwa [hs])
      simp [readBytes, memRead, h0, bind, Except.bind, this, hs]

/-! ### Load's memory and the reset -/

/-- The memory Load makes is canonical (70_reset_and_hazards.md R147). -/
theorem loadedMemory_wf (p : Params) (rom : List Byte) (h : rom.length ≤ 3248) : (loadedMemory p rom).wf := by
  refine Memory.wf_putAll rom 512 _ (Memory.wf_putAll _ 0 [] Memory.wf_nil ?_) (by omega)
  simp

/-- Every byte of the memory Load makes: the ROM's from 512, the font's below 80, else 0 (70_reset_and_hazards.md R147). -/
theorem byteAt_loadedMemory (p : Params) (rom : List Byte) (h : rom.length ≤ 3248) (b : Nat) :
    Memory.byteAt (loadedMemory p rom) b =
      if h : 512 ≤ b ∧ b < 512 + rom.length then rom[b - 512]'(by omega) else if h : b < 80 then p.font[b] else 0 := by
  have w0 : (Memory.putAll 0 p.font.toList []).wf := Memory.wf_putAll _ 0 [] Memory.wf_nil (by simp)
  rw [loadedMemory, Memory.byteAt_putAll rom 512 _ w0 (by omega) b]
  by_cases h1 : 512 ≤ b ∧ b < 512 + rom.length
  · rw [dif_pos h1, dif_pos h1]
  · rw [dif_neg h1, dif_neg h1, Memory.byteAt_putAll _ 0 _ Memory.wf_nil (by simp) b]
    by_cases h2 : b < 80
    · rw [dif_pos h2, dif_pos (by simp; omega)]; simp
    · rw [dif_neg h2, dif_neg (by simp; omega)]; simp [Memory.byteAt, Memory.unlisted]; omega

/-- Memory at reset is canonical: it lists nothing. -/
theorem reset_mem_wf : State.reset.mem.wf := Memory.wf_nil

end Sys2Proof.Machine
end

