-- ==== Sys2Proof/Laws/State.lean ====
section
/-! SUPPORT. What each update of the state leaves in each field: one lemma per field per update, true by `rfl`, so that no
proof unfolds a record update; then the registers through `getV`. -/

namespace Sys2Proof.Machine

variable (s : State)

/-! ### setPc -/

@[simp] theorem State.setPc_mem (a : Word) : (s.setPc a).mem = s.mem := rfl
@[simp] theorem State.setPc_v (a : Word) : (s.setPc a).v = s.v := rfl
@[simp] theorem State.setPc_i (a : Word) : (s.setPc a).i = s.i := rfl
@[simp] theorem State.setPc_pc (a : Word) : (s.setPc a).pc = a := rfl
@[simp] theorem State.setPc_stack (a : Word) : (s.setPc a).stack = s.stack := rfl
@[simp] theorem State.setPc_dt (a : Word) : (s.setPc a).dt = s.dt := rfl
@[simp] theorem State.setPc_st (a : Word) : (s.setPc a).st = s.st := rfl
@[simp] theorem State.setPc_fb (a : Word) : (s.setPc a).fb = s.fb := rfl
@[simp] theorem State.setPc_dirty (a : Word) : (s.setPc a).dirty = s.dirty := rfl
@[simp] theorem State.setPc_run (a : Word) : (s.setPc a).run = s.run := rfl
@[simp] theorem State.setPc_params (a : Word) : (s.setPc a).params = s.params := rfl
@[simp] theorem State.setPc_env (a : Word) : (s.setPc a).env = s.env := rfl
@[simp] theorem State.getV_setPc (a : Word) (r : RegIx) : (s.setPc a).getV r = s.getV r := rfl

/-! ### setMem -/

@[simp] theorem State.setMem_mem (m : Memory) : (s.setMem m).mem = m := rfl
@[simp] theorem State.setMem_v (m : Memory) : (s.setMem m).v = s.v := rfl
@[simp] theorem State.setMem_i (m : Memory) : (s.setMem m).i = s.i := rfl
@[simp] theorem State.setMem_pc (m : Memory) : (s.setMem m).pc = s.pc := rfl
@[simp] theorem State.setMem_stack (m : Memory) : (s.setMem m).stack = s.stack := rfl
@[simp] theorem State.setMem_dt (m : Memory) : (s.setMem m).dt = s.dt := rfl
@[simp] theorem State.setMem_st (m : Memory) : (s.setMem m).st = s.st := rfl
@[simp] theorem State.setMem_fb (m : Memory) : (s.setMem m).fb = s.fb := rfl
@[simp] theorem State.setMem_dirty (m : Memory) : (s.setMem m).dirty = s.dirty := rfl
@[simp] theorem State.setMem_run (m : Memory) : (s.setMem m).run = s.run := rfl
@[simp] theorem State.setMem_params (m : Memory) : (s.setMem m).params = s.params := rfl
@[simp] theorem State.setMem_env (m : Memory) : (s.setMem m).env = s.env := rfl
@[simp] theorem State.getV_setMem (m : Memory) (r : RegIx) : (s.setMem m).getV r = s.getV r := rfl

/-! ### setV -/

@[simp] theorem State.setV_mem (x : RegIx) (b : Byte) : (s.setV x b).mem = s.mem := rfl
@[simp] theorem State.setV_i (x : RegIx) (b : Byte) : (s.setV x b).i = s.i := rfl
@[simp] theorem State.setV_pc (x : RegIx) (b : Byte) : (s.setV x b).pc = s.pc := rfl
@[simp] theorem State.setV_stack (x : RegIx) (b : Byte) : (s.setV x b).stack = s.stack := rfl
@[simp] theorem State.setV_dt (x : RegIx) (b : Byte) : (s.setV x b).dt = s.dt := rfl
@[simp] theorem State.setV_st (x : RegIx) (b : Byte) : (s.setV x b).st = s.st := rfl
@[simp] theorem State.setV_fb (x : RegIx) (b : Byte) : (s.setV x b).fb = s.fb := rfl
@[simp] theorem State.setV_dirty (x : RegIx) (b : Byte) : (s.setV x b).dirty = s.dirty := rfl
@[simp] theorem State.setV_run (x : RegIx) (b : Byte) : (s.setV x b).run = s.run := rfl
@[simp] theorem State.setV_params (x : RegIx) (b : Byte) : (s.setV x b).params = s.params := rfl
@[simp] theorem State.setV_env (x : RegIx) (b : Byte) : (s.setV x b).env = s.env := rfl

/-! ### setI -/

@[simp] theorem State.setI_mem (a : Word) : (s.setI a).mem = s.mem := rfl
@[simp] theorem State.setI_v (a : Word) : (s.setI a).v = s.v := rfl
@[simp] theorem State.setI_i (a : Word) : (s.setI a).i = .holds a := rfl
@[simp] theorem State.setI_pc (a : Word) : (s.setI a).pc = s.pc := rfl
@[simp] theorem State.setI_stack (a : Word) : (s.setI a).stack = s.stack := rfl
@[simp] theorem State.setI_dt (a : Word) : (s.setI a).dt = s.dt := rfl
@[simp] theorem State.setI_st (a : Word) : (s.setI a).st = s.st := rfl
@[simp] theorem State.setI_fb (a : Word) : (s.setI a).fb = s.fb := rfl
@[simp] theorem State.setI_dirty (a : Word) : (s.setI a).dirty = s.dirty := rfl
@[simp] theorem State.setI_run (a : Word) : (s.setI a).run = s.run := rfl
@[simp] theorem State.setI_params (a : Word) : (s.setI a).params = s.params := rfl
@[simp] theorem State.setI_env (a : Word) : (s.setI a).env = s.env := rfl
@[simp] theorem State.getV_setI (a : Word) (r : RegIx) : (s.setI a).getV r = s.getV r := rfl

/-! ### setStack -/

@[simp] theorem State.setStack_mem (as : List Word) : (s.setStack as).mem = s.mem := rfl
@[simp] theorem State.setStack_v (as : List Word) : (s.setStack as).v = s.v := rfl
@[simp] theorem State.setStack_i (as : List Word) : (s.setStack as).i = s.i := rfl
@[simp] theorem State.setStack_pc (as : List Word) : (s.setStack as).pc = s.pc := rfl
@[simp] theorem State.setStack_stack (as : List Word) : (s.setStack as).stack = as := rfl
@[simp] theorem State.setStack_dt (as : List Word) : (s.setStack as).dt = s.dt := rfl
@[simp] theorem State.setStack_st (as : List Word) : (s.setStack as).st = s.st := rfl
@[simp] theorem State.setStack_fb (as : List Word) : (s.setStack as).fb = s.fb := rfl
@[simp] theorem State.setStack_dirty (as : List Word) : (s.setStack as).dirty = s.dirty := rfl
@[simp] theorem State.setStack_run (as : List Word) : (s.setStack as).run = s.run := rfl
@[simp] theorem State.setStack_params (as : List Word) : (s.setStack as).params = s.params := rfl
@[simp] theorem State.setStack_env (as : List Word) : (s.setStack as).env = s.env := rfl
@[simp] theorem State.getV_setStack (as : List Word) (r : RegIx) : (s.setStack as).getV r = s.getV r := rfl

/-! ### setDt -/

@[simp] theorem State.setDt_mem (b : Byte) : (s.setDt b).mem = s.mem := rfl
@[simp] theorem State.setDt_v (b : Byte) : (s.setDt b).v = s.v := rfl
@[simp] theorem State.setDt_i (b : Byte) : (s.setDt b).i = s.i := rfl
@[simp] theorem State.setDt_pc (b : Byte) : (s.setDt b).pc = s.pc := rfl
@[simp] theorem State.setDt_stack (b : Byte) : (s.setDt b).stack = s.stack := rfl
@[simp] theorem State.setDt_dt (b : Byte) : (s.setDt b).dt = b := rfl
@[simp] theorem State.setDt_st (b : Byte) : (s.setDt b).st = s.st := rfl
@[simp] theorem State.setDt_fb (b : Byte) : (s.setDt b).fb = s.fb := rfl
@[simp] theorem State.setDt_dirty (b : Byte) : (s.setDt b).dirty = s.dirty := rfl
@[simp] theorem State.setDt_run (b : Byte) : (s.setDt b).run = s.run := rfl
@[simp] theorem State.setDt_params (b : Byte) : (s.setDt b).params = s.params := rfl
@[simp] theorem State.setDt_env (b : Byte) : (s.setDt b).env = s.env := rfl
@[simp] theorem State.getV_setDt (b : Byte) (r : RegIx) : (s.setDt b).getV r = s.getV r := rfl

/-! ### setSt -/

@[simp] theorem State.setSt_mem (b : Byte) : (s.setSt b).mem = s.mem := rfl
@[simp] theorem State.setSt_v (b : Byte) : (s.setSt b).v = s.v := rfl
@[simp] theorem State.setSt_i (b : Byte) : (s.setSt b).i = s.i := rfl
@[simp] theorem State.setSt_pc (b : Byte) : (s.setSt b).pc = s.pc := rfl
@[simp] theorem State.setSt_stack (b : Byte) : (s.setSt b).stack = s.stack := rfl
@[simp] theorem State.setSt_dt (b : Byte) : (s.setSt b).dt = s.dt := rfl
@[simp] theorem State.setSt_st (b : Byte) : (s.setSt b).st = b := rfl
@[simp] theorem State.setSt_fb (b : Byte) : (s.setSt b).fb = s.fb := rfl
@[simp] theorem State.setSt_dirty (b : Byte) : (s.setSt b).dirty = s.dirty := rfl
@[simp] theorem State.setSt_run (b : Byte) : (s.setSt b).run = s.run := rfl
@[simp] theorem State.setSt_params (b : Byte) : (s.setSt b).params = s.params := rfl
@[simp] theorem State.setSt_env (b : Byte) : (s.setSt b).env = s.env := rfl
@[simp] theorem State.getV_setSt (b : Byte) (r : RegIx) : (s.setSt b).getV r = s.getV r := rfl

/-! ### setFb -/

@[simp] theorem State.setFb_mem (f : Frame) : (s.setFb f).mem = s.mem := rfl
@[simp] theorem State.setFb_v (f : Frame) : (s.setFb f).v = s.v := rfl
@[simp] theorem State.setFb_i (f : Frame) : (s.setFb f).i = s.i := rfl
@[simp] theorem State.setFb_pc (f : Frame) : (s.setFb f).pc = s.pc := rfl
@[simp] theorem State.setFb_stack (f : Frame) : (s.setFb f).stack = s.stack := rfl
@[simp] theorem State.setFb_dt (f : Frame) : (s.setFb f).dt = s.dt := rfl
@[simp] theorem State.setFb_st (f : Frame) : (s.setFb f).st = s.st := rfl
@[simp] theorem State.setFb_fb (f : Frame) : (s.setFb f).fb = f := rfl
@[simp] theorem State.setFb_dirty (f : Frame) : (s.setFb f).dirty = s.dirty := rfl
@[simp] theorem State.setFb_run (f : Frame) : (s.setFb f).run = s.run := rfl
@[simp] theorem State.setFb_params (f : Frame) : (s.setFb f).params = s.params := rfl
@[simp] theorem State.setFb_env (f : Frame) : (s.setFb f).env = s.env := rfl
@[simp] theorem State.getV_setFb (f : Frame) (r : RegIx) : (s.setFb f).getV r = s.getV r := rfl

/-! ### setDirty -/

@[simp] theorem State.setDirty_mem (d : Bool) : (s.setDirty d).mem = s.mem := rfl
@[simp] theorem State.setDirty_v (d : Bool) : (s.setDirty d).v = s.v := rfl
@[simp] theorem State.setDirty_i (d : Bool) : (s.setDirty d).i = s.i := rfl
@[simp] theorem State.setDirty_pc (d : Bool) : (s.setDirty d).pc = s.pc := rfl
@[simp] theorem State.setDirty_stack (d : Bool) : (s.setDirty d).stack = s.stack := rfl
@[simp] theorem State.setDirty_dt (d : Bool) : (s.setDirty d).dt = s.dt := rfl
@[simp] theorem State.setDirty_st (d : Bool) : (s.setDirty d).st = s.st := rfl
@[simp] theorem State.setDirty_fb (d : Bool) : (s.setDirty d).fb = s.fb := rfl
@[simp] theorem State.setDirty_dirty (d : Bool) : (s.setDirty d).dirty = d := rfl
@[simp] theorem State.setDirty_run (d : Bool) : (s.setDirty d).run = s.run := rfl
@[simp] theorem State.setDirty_params (d : Bool) : (s.setDirty d).params = s.params := rfl
@[simp] theorem State.setDirty_env (d : Bool) : (s.setDirty d).env = s.env := rfl
@[simp] theorem State.getV_setDirty (d : Bool) (r : RegIx) : (s.setDirty d).getV r = s.getV r := rfl

/-! ### setRun -/

@[simp] theorem State.setRun_mem (r : RunState) : (s.setRun r).mem = s.mem := rfl
@[simp] theorem State.setRun_v (r : RunState) : (s.setRun r).v = s.v := rfl
@[simp] theorem State.setRun_i (r : RunState) : (s.setRun r).i = s.i := rfl
@[simp] theorem State.setRun_pc (r : RunState) : (s.setRun r).pc = s.pc := rfl
@[simp] theorem State.setRun_stack (r : RunState) : (s.setRun r).stack = s.stack := rfl
@[simp] theorem State.setRun_dt (r : RunState) : (s.setRun r).dt = s.dt := rfl
@[simp] theorem State.setRun_st (r : RunState) : (s.setRun r).st = s.st := rfl
@[simp] theorem State.setRun_fb (r : RunState) : (s.setRun r).fb = s.fb := rfl
@[simp] theorem State.setRun_dirty (r : RunState) : (s.setRun r).dirty = s.dirty := rfl
@[simp] theorem State.setRun_run (r : RunState) : (s.setRun r).run = r := rfl
@[simp] theorem State.setRun_params (r : RunState) : (s.setRun r).params = s.params := rfl
@[simp] theorem State.setRun_env (r : RunState) : (s.setRun r).env = s.env := rfl
@[simp] theorem State.getV_setRun (r : RunState) (q : RegIx) : (s.setRun r).getV q = s.getV q := rfl

/-! ### setEnv -/

@[simp] theorem State.setEnv_mem (e : Env) : (s.setEnv e).mem = s.mem := rfl
@[simp] theorem State.setEnv_v (e : Env) : (s.setEnv e).v = s.v := rfl
@[simp] theorem State.setEnv_i (e : Env) : (s.setEnv e).i = s.i := rfl
@[simp] theorem State.setEnv_pc (e : Env) : (s.setEnv e).pc = s.pc := rfl
@[simp] theorem State.setEnv_stack (e : Env) : (s.setEnv e).stack = s.stack := rfl
@[simp] theorem State.setEnv_dt (e : Env) : (s.setEnv e).dt = s.dt := rfl
@[simp] theorem State.setEnv_st (e : Env) : (s.setEnv e).st = s.st := rfl
@[simp] theorem State.setEnv_fb (e : Env) : (s.setEnv e).fb = s.fb := rfl
@[simp] theorem State.setEnv_dirty (e : Env) : (s.setEnv e).dirty = s.dirty := rfl
@[simp] theorem State.setEnv_run (e : Env) : (s.setEnv e).run = s.run := rfl
@[simp] theorem State.setEnv_params (e : Env) : (s.setEnv e).params = s.params := rfl
@[simp] theorem State.setEnv_env (e : Env) : (s.setEnv e).env = e := rfl
@[simp] theorem State.getV_setEnv (e : Env) (r : RegIx) : (s.setEnv e).getV r = s.getV r := rfl

/-! ### Registers -/

/-- A register reads what was last written to it (10_state.md R21). -/
@[simp] theorem State.getV_setV_self (x : RegIx) (b : Byte) : (s.setV x b).getV x = .holds b := by
  simp [State.getV, State.setV]

/-- No aliasing between registers (10_state.md R21). -/
theorem State.getV_setV_of_ne {x r : RegIx} (h : r ≠ x) (b : Byte) : (s.setV x b).getV r = s.getV r := by
  have hn : x.toNat ≠ r.toNat := fun e => h (BitVec.eq_of_toNat_eq e.symm)
  simp [State.getV, State.setV, Vector.getElem_set_ne, hn]

/-- Both cases of a register read after a register write. -/
theorem State.getV_setV (x r : RegIx) (b : Byte) :
    (s.setV x b).getV r = if r = x then .holds b else s.getV r := by
  by_cases h : r = x
  · subst h; simp
  · simp [h, State.getV_setV_of_ne]

/-- Two states with the same registers are the same in that field. -/
theorem State.v_ext {s t : State} (h : ∀ r, t.getV r = s.getV r) : t.v = s.v := by
  apply Vector.ext
  intro k hk
  have := h (BitVec.ofNat 4 k)
  simpa [State.getV, Nat.mod_eq_of_lt hk] using this

/-! ### Composite updates -/

@[simp] theorem State.advance_mem : (s.advance).mem = s.mem := rfl
@[simp] theorem State.advance_v : (s.advance).v = s.v := rfl
@[simp] theorem State.advance_i : (s.advance).i = s.i := rfl
@[simp] theorem State.advance_pc : (s.advance).pc = s.pc + 2 := rfl
@[simp] theorem State.advance_stack : (s.advance).stack = s.stack := rfl
@[simp] theorem State.advance_dt : (s.advance).dt = s.dt := rfl
@[simp] theorem State.advance_st : (s.advance).st = s.st := rfl
@[simp] theorem State.advance_fb : (s.advance).fb = s.fb := rfl
@[simp] theorem State.advance_dirty : (s.advance).dirty = s.dirty := rfl
@[simp] theorem State.advance_run : (s.advance).run = s.run := rfl
@[simp] theorem State.advance_params : (s.advance).params = s.params := rfl
@[simp] theorem State.advance_env : (s.advance).env = s.env := rfl
@[simp] theorem State.getV_advance (r : RegIx) : (s.advance).getV r = s.getV r := rfl

@[simp] theorem State.skipIf_mem (c : Bool) : (s.skipIf c).mem = s.mem := rfl
@[simp] theorem State.skipIf_v (c : Bool) : (s.skipIf c).v = s.v := rfl
@[simp] theorem State.skipIf_i (c : Bool) : (s.skipIf c).i = s.i := rfl
@[simp] theorem State.skipIf_pc (c : Bool) : (s.skipIf c).pc = if c then s.pc + 4 else s.pc + 2 := rfl
@[simp] theorem State.skipIf_stack (c : Bool) : (s.skipIf c).stack = s.stack := rfl
@[simp] theorem State.skipIf_dt (c : Bool) : (s.skipIf c).dt = s.dt := rfl
@[simp] theorem State.skipIf_st (c : Bool) : (s.skipIf c).st = s.st := rfl
@[simp] theorem State.skipIf_fb (c : Bool) : (s.skipIf c).fb = s.fb := rfl
@[simp] theorem State.skipIf_dirty (c : Bool) : (s.skipIf c).dirty = s.dirty := rfl
@[simp] theorem State.skipIf_run (c : Bool) : (s.skipIf c).run = s.run := rfl
@[simp] theorem State.skipIf_params (c : Bool) : (s.skipIf c).params = s.params := rfl
@[simp] theorem State.skipIf_env (c : Bool) : (s.skipIf c).env = s.env := rfl
@[simp] theorem State.getV_skipIf (c : Bool) (r : RegIx) : (s.skipIf c).getV r = s.getV r := rfl

@[simp] theorem State.report_mem (r : HostReport) : (s.report r).mem = s.mem := rfl
@[simp] theorem State.report_v (r : HostReport) : (s.report r).v = s.v := rfl
@[simp] theorem State.report_i (r : HostReport) : (s.report r).i = s.i := rfl
@[simp] theorem State.report_pc (r : HostReport) : (s.report r).pc = s.pc := rfl
@[simp] theorem State.report_stack (r : HostReport) : (s.report r).stack = s.stack := rfl
@[simp] theorem State.report_dt (r : HostReport) : (s.report r).dt = s.dt := rfl
@[simp] theorem State.report_st (r : HostReport) : (s.report r).st = s.st := rfl
@[simp] theorem State.report_fb (r : HostReport) : (s.report r).fb = s.fb := rfl
@[simp] theorem State.report_dirty (r : HostReport) : (s.report r).dirty = s.dirty := rfl
@[simp] theorem State.report_run (r : HostReport) : (s.report r).run = s.run := rfl
@[simp] theorem State.report_params (r : HostReport) : (s.report r).params = s.params := rfl
@[simp] theorem State.getV_report (h : HostReport) (r : RegIx) : (s.report h).getV r = s.getV r := rfl

@[simp] theorem State.setResultAndFlag_mem (x : RegIx) (b c : Byte) : (s.setResultAndFlag x b c).mem = s.mem := rfl
@[simp] theorem State.setResultAndFlag_i (x : RegIx) (b c : Byte) : (s.setResultAndFlag x b c).i = s.i := rfl
@[simp] theorem State.setResultAndFlag_pc (x : RegIx) (b c : Byte) : (s.setResultAndFlag x b c).pc = s.pc := rfl
@[simp] theorem State.setResultAndFlag_stack (x : RegIx) (b c : Byte) : (s.setResultAndFlag x b c).stack = s.stack := rfl
@[simp] theorem State.setResultAndFlag_dt (x : RegIx) (b c : Byte) : (s.setResultAndFlag x b c).dt = s.dt := rfl
@[simp] theorem State.setResultAndFlag_st (x : RegIx) (b c : Byte) : (s.setResultAndFlag x b c).st = s.st := rfl
@[simp] theorem State.setResultAndFlag_fb (x : RegIx) (b c : Byte) : (s.setResultAndFlag x b c).fb = s.fb := rfl
@[simp] theorem State.setResultAndFlag_dirty (x : RegIx) (b c : Byte) : (s.setResultAndFlag x b c).dirty = s.dirty := rfl
@[simp] theorem State.setResultAndFlag_run (x : RegIx) (b c : Byte) : (s.setResultAndFlag x b c).run = s.run := rfl
@[simp] theorem State.setResultAndFlag_params (x : RegIx) (b c : Byte) : (s.setResultAndFlag x b c).params = s.params := rfl
@[simp] theorem State.setResultAndFlag_env (x : RegIx) (b c : Byte) : (s.setResultAndFlag x b c).env = s.env := rfl

/-- The flag is written last: register 15 holds it, whatever the destination (43_register_alu.md R101). -/
theorem State.getV_setResultAndFlag (x r : RegIx) (b c : Byte) :
    (s.setResultAndFlag x b c).getV r = if r = vf then .holds c else if r = x then .holds b else s.getV r := by
  simp [State.setResultAndFlag, State.getV_setV]

/-! ### Taking a fault -/

@[simp] theorem takeFault_mem (op : Option Word) (t : Trap) : (takeFault op t s).mem = s.mem := rfl
@[simp] theorem takeFault_v (op : Option Word) (t : Trap) : (takeFault op t s).v = s.v := rfl
@[simp] theorem takeFault_i (op : Option Word) (t : Trap) : (takeFault op t s).i = s.i := rfl
@[simp] theorem takeFault_pc (op : Option Word) (t : Trap) : (takeFault op t s).pc = s.pc := rfl
@[simp] theorem takeFault_stack (op : Option Word) (t : Trap) : (takeFault op t s).stack = s.stack := rfl
@[simp] theorem takeFault_dt (op : Option Word) (t : Trap) : (takeFault op t s).dt = s.dt := rfl
@[simp] theorem takeFault_st (op : Option Word) (t : Trap) : (takeFault op t s).st = s.st := rfl
@[simp] theorem takeFault_fb (op : Option Word) (t : Trap) : (takeFault op t s).fb = s.fb := rfl
@[simp] theorem takeFault_dirty (op : Option Word) (t : Trap) : (takeFault op t s).dirty = s.dirty := rfl
@[simp] theorem takeFault_run (op : Option Word) (t : Trap) : (takeFault op t s).run = .faulted { code := t.code, pc := s.pc, opcode := op, info := t.info } := rfl
@[simp] theorem takeFault_params (op : Option Word) (t : Trap) : (takeFault op t s).params = s.params := rfl
@[simp] theorem takeFault_env (op : Option Word) (t : Trap) : (takeFault op t s).env = s.env := rfl
@[simp] theorem getV_takeFault (op : Option Word) (t : Trap) (r : RegIx) : (takeFault op t s).getV r = s.getV r := rfl

/-! ### A finished draw -/

@[simp] theorem State.afterDrawing_mem (d : Drawing) : (s.afterDrawing d).mem = s.mem := rfl
@[simp] theorem State.afterDrawing_i (d : Drawing) : (s.afterDrawing d).i = s.i := rfl
@[simp] theorem State.afterDrawing_pc (d : Drawing) : (s.afterDrawing d).pc = s.pc + 2 := rfl
@[simp] theorem State.afterDrawing_stack (d : Drawing) : (s.afterDrawing d).stack = s.stack := rfl
@[simp] theorem State.afterDrawing_dt (d : Drawing) : (s.afterDrawing d).dt = s.dt := rfl
@[simp] theorem State.afterDrawing_st (d : Drawing) : (s.afterDrawing d).st = s.st := rfl
@[simp] theorem State.afterDrawing_fb (d : Drawing) : (s.afterDrawing d).fb = d.fb := rfl
@[simp] theorem State.afterDrawing_dirty (d : Drawing) : (s.afterDrawing d).dirty = (s.dirty || d.changed) := rfl
@[simp] theorem State.afterDrawing_run (d : Drawing) : (s.afterDrawing d).run = s.run := rfl
@[simp] theorem State.afterDrawing_params (d : Drawing) : (s.afterDrawing d).params = s.params := rfl
@[simp] theorem State.afterDrawing_env (d : Drawing) : (s.afterDrawing d).env = s.env := rfl

theorem State.getV_afterDrawing (d : Drawing) (r : RegIx) :
    (s.afterDrawing d).getV r = if r = vf then .holds (if d.collision then 1 else 0) else s.getV r := by
  simp [State.afterDrawing, State.getV_setV]

/-! ### A block of registers -/

@[simp] theorem State.setVs_mem (bs : List Byte) : ∀ (s : State) (k : Nat), (s.setVs k bs).mem = s.mem := by
  induction bs with
  | nil => intros; rfl
  | cons b bs ih => intro s k; simp [State.setVs, ih]
@[simp] theorem State.setVs_i (bs : List Byte) : ∀ (s : State) (k : Nat), (s.setVs k bs).i = s.i := by
  induction bs with
  | nil => intros; rfl
  | cons b bs ih => intro s k; simp [State.setVs, ih]
@[simp] theorem State.setVs_pc (bs : List Byte) : ∀ (s : State) (k : Nat), (s.setVs k bs).pc = s.pc := by
  induction bs with
  | nil => intros; rfl
  | cons b bs ih => intro s k; simp [State.setVs, ih]
@[simp] theorem State.setVs_stack (bs : List Byte) : ∀ (s : State) (k : Nat), (s.setVs k bs).stack = s.stack := by
  induction bs with
  | nil => intros; rfl
  | cons b bs ih => intro s k; simp [State.setVs, ih]
@[simp] theorem State.setVs_dt (bs : List Byte) : ∀ (s : State) (k : Nat), (s.setVs k bs).dt = s.dt := by
  induction bs with
  | nil => intros; rfl
  | cons b bs ih => intro s k; simp [State.setVs, ih]
@[simp] theorem State.setVs_st (bs : List Byte) : ∀ (s : State) (k : Nat), (s.setVs k bs).st = s.st := by
  induction bs with
  | nil => intros; rfl
  | cons b bs ih => intro s k; simp [State.setVs, ih]
@[simp] theorem State.setVs_fb (bs : List Byte) : ∀ (s : State) (k : Nat), (s.setVs k bs).fb = s.fb := by
  induction bs with
  | nil => intros; rfl
  | cons b bs ih => intro s k; simp [State.setVs, ih]
@[simp] theorem State.setVs_dirty (bs : List Byte) : ∀ (s : State) (k : Nat), (s.setVs k bs).dirty = s.dirty := by
  induction bs with
  | nil => intros; rfl
  | cons b bs ih => intro s k; simp [State.setVs, ih]
@[simp] theorem State.setVs_run (bs : List Byte) : ∀ (s : State) (k : Nat), (s.setVs k bs).run = s.run := by
  induction bs with
  | nil => intros; rfl
  | cons b bs ih => intro s k; simp [State.setVs, ih]
@[simp] theorem State.setVs_params (bs : List Byte) : ∀ (s : State) (k : Nat), (s.setVs k bs).params = s.params := by
  induction bs with
  | nil => intros; rfl
  | cons b bs ih => intro s k; simp [State.setVs, ih]
@[simp] theorem State.setVs_env (bs : List Byte) : ∀ (s : State) (k : Nat), (s.setVs k bs).env = s.env := by
  induction bs with
  | nil => intros; rfl
  | cons b bs ih => intro s k; simp [State.setVs, ih]

/-- A block write from register `k` on: register `r` receives its byte if it is in the block, and is unchanged if not. -/
theorem State.getV_setVs (bs : List Byte) : ∀ (s : State) (k : Nat), k + bs.length ≤ 16 → ∀ r : RegIx,
    (s.setVs k bs).getV r =
      if h : k ≤ r.toNat ∧ r.toNat < k + bs.length then .holds (bs[r.toNat - k]'(by omega)) else s.getV r := by
  induction bs with
  | nil => intro s k _ r; simp [State.setVs]
  | cons b bs ih =>
    intro s k hk r
    simp only [List.length_cons] at hk
    rw [State.setVs, ih _ _ (by omega), State.getV_setV]
    have hr : r = BitVec.ofNat 4 k ↔ r.toNat = k := by
      rw [← BitVec.toNat_inj, BitVec.toNat_ofNat, Nat.mod_eq_of_lt (by omega)]
    by_cases h1 : r.toNat = k
    · have h2 : ¬(k + 1 ≤ r.toNat ∧ r.toNat < k + 1 + bs.length) := by omega
      have h3 : k ≤ r.toNat ∧ r.toNat < k + (b :: bs).length := by simp; omega
      rw [dif_neg h2, if_pos (hr.2 h1), dif_pos h3]
      simp [h1]
    · rw [if_neg (fun e => h1 (hr.1 e))]
      by_cases h2 : k + 1 ≤ r.toNat ∧ r.toNat < k + 1 + bs.length
      · have h3 : k ≤ r.toNat ∧ r.toNat < k + (b :: bs).length := by simp; omega
        rw [dif_pos h2, dif_pos h3]
        have h4 : r.toNat - k = (r.toNat - (k + 1)) + 1 := by omega
        simp [h4]
      · have h3 : ¬(k ≤ r.toNat ∧ r.toNat < k + (b :: bs).length) := by simp; omega
        rw [dif_neg h2, dif_neg h3]

end Sys2Proof.Machine
end

