-- ==== Sys2Proof/Laws/Ops.lean ====
section
/-! SUPPORT. What each shared operation can do, said once: operand reads, the questions to the environment, the end of an
instruction, fetch, and Load. -/

namespace Sys2Proof.Machine

/-! ### Operand reads -/

/-- All a register read can do: answer the value the register holds, or raise `UninitialisedRead`. -/
theorem readV_eq_ok_iff {x : RegIx} {s : State} {b : Byte} : readV x s = .ok b ↔ s.getV x = .holds b := by
  unfold readV; split <;> simp_all

theorem readV_of_holds {x : RegIx} {s : State} {b : Byte} (h : s.getV x = .holds b) : readV x s = .ok b :=
  readV_eq_ok_iff.2 h

theorem readV_of_uninitialised {x : RegIx} {s : State} (h : s.getV x = .uninitialised) :
    readV x s = .error (uninitTrap (.v x)) := by
  unfold readV; rw [h]

/-- All a read of `I` can do: answer the value it holds, or raise `UninitialisedRead`. -/
theorem readI_eq_ok_iff {s : State} {a : Word} : readI s = .ok a ↔ s.i = .holds a := by
  unfold readI; split <;> simp_all

theorem readI_of_holds {s : State} {a : Word} (h : s.i = .holds a) : readI s = .ok a := readI_eq_ok_iff.2 h

theorem readI_of_uninitialised {s : State} (h : s.i = .uninitialised) : readI s = .error (uninitTrap .i) := by
  unfold readI; rw [h]

/-- All a block of register reads can do when it answers: every register of it holds the byte answered. -/
theorem readVs_eq_ok_iff (s : State) : ∀ (n k : Nat) (bs : List Byte), readVs s k n = .ok bs ↔
    bs.length = n ∧ ∀ j, (h : j < bs.length) → s.getV (BitVec.ofNat 4 (k + j)) = .holds bs[j] := by
  intro n
  induction n with
  | zero =>
    intro k bs
    simp only [readVs, Except.ok.injEq]
    constructor
    · rintro rfl; exact ⟨rfl, fun j h => absurd h (by simp)⟩
    · intro h; exact (List.length_eq_zero_iff.1 h.1).symm
  | succ n ih =>
    intro k bs
    simp only [readVs, bind, Except.bind, pure, Except.pure]
    cases h1 : readV (BitVec.ofNat 4 k) s with
    | error e =>
      simp only [reduceCtorEq, false_iff]
      rintro ⟨hl, hall⟩
      have h0 := hall 0 (by omega)
      rw [Nat.add_zero, ← readV_eq_ok_iff, h1] at h0
      exact absurd h0 (by simp)
    | ok b =>
      have hb := readV_eq_ok_iff.1 h1
      cases h2 : readVs s (k + 1) n with
      | error e =>
        simp only [reduceCtorEq, false_iff]
        rintro ⟨hl, hall⟩
        cases bs with
        | nil => simp at hl
        | cons c cs =>
          have := (ih (k + 1) cs).2 ⟨by simpa using hl, fun j hj => by
            have := hall (j + 1) (by simpa using hj)
            rwa [show k + (j + 1) = k + 1 + j by omega] at this⟩
          rw [h2] at this; exact absurd this (by simp)
      | ok cs =>
        obtain ⟨hl, hall⟩ := (ih (k + 1) cs).1 h2
        simp only [Except.ok.injEq]
        constructor
        · rintro rfl
          refine ⟨by simp [hl], fun j hj => ?_⟩
          cases j with
          | zero => exact hb
          | succ j =>
            rw [show k + (j + 1) = k + 1 + j by omega]
            exact hall j (by simpa using hj)
        · rintro ⟨hl', hall'⟩
          cases bs with
          | nil => simp at hl'
          | cons c ds =>
            have h0 := hall' 0 (by simp)
            rw [Nat.add_zero, hb] at h0
            have hds := (ih (k + 1) ds).2 ⟨by simpa using hl', fun j hj => by
              have := hall' (j + 1) (by simpa using hj)
              rwa [show k + (j + 1) = k + 1 + j by omega] at this⟩
            rw [h2] at hds
            simp only [Except.ok.injEq] at hds
            simp only [RegCell.holds.injEq, List.getElem_cons_zero] at h0
            rw [h0, hds]

/-- A block of register reads raises the fault of its first uninitialised register. -/
theorem readVs_error (s : State) : ∀ (n k j : Nat), j < n →
    (∀ i < j, s.getV (BitVec.ofNat 4 (k + i)) ≠ .uninitialised) →
    s.getV (BitVec.ofNat 4 (k + j)) = .uninitialised →
    readVs s k n = .error (uninitTrap (.v (BitVec.ofNat 4 (k + j)))) := by
  intro n
  induction n with
  | zero => intro k j h; simp at h
  | succ n ih =>
    intro k j hj hall hu
    cases j with
    | zero => simp [readVs, readV_of_uninitialised (x := BitVec.ofNat 4 k) hu, bind, Except.bind]
    | succ j =>
      have h0 := hall 0 (by omega)
      rw [Nat.add_zero] at h0
      have hs : ∀ i, k + 1 + i = k + (i + 1) := fun i => by omega
      cases hc : s.getV (BitVec.ofNat 4 k) with
      | uninitialised => exact absurd hc h0
      | holds b =>
        have := ih (k + 1) j (by omega) (fun i hi => by rw [hs]; exact hall (i + 1) (by omega)) (by rwa [hs])
        simp [readVs, readV_of_holds hc, bind, Except.bind, this, hs]

/-- A key operand of 0..15 is that key (45_keys_timers.md R120). -/
theorem keyOf_eq_ok_iff {b : Byte} {k : Key} : keyOf b = .ok k ↔ b.toNat ≤ 15 ∧ b.setWidth 4 = k := by
  unfold keyOf; split <;> simp <;> omega

/-! ### The end of an instruction -/

/-- An instruction whose pseudocode raises nothing ends in the state it reached. -/
@[simp] theorem conclude_ok (i : Instr) (s t : State) : conclude i s (.ok t) = .next t := rfl

/-- An instruction whose pseudocode raises a fault has the fault's entry as its only effect (40_execution_cycle.md R82). -/
@[simp] theorem conclude_error (i : Instr) (s : State) (e : Trap) :
    conclude i s (.error e) = .next (takeFault (some (encode i)) e s) := rfl

/-- Both ends of an instruction. -/
theorem conclude_eq_next_iff {i : Instr} {s t : State} {r : Except Trap State} :
    conclude i s r = .next t ↔ r = .ok t ∨ ∃ e, r = .error e ∧ takeFault (some (encode i)) e s = t := by
  cases r <;> simp

/-! ### The questions to the environment -/

/-- A listed random byte is used up. -/
theorem askRandomByte_cons {s : State} {b : Byte} {bs : List Byte} (h : s.env.randomBytes = b :: bs) :
    askRandomByte s = (b, s.setEnv { s.env with asked := s.env.asked + 1, randomBytes := bs }) := by
  simp only [askRandomByte, h]

/-- With none listed the draw is the free value of the question's number. -/
theorem askRandomByte_nil {s : State} (h : s.env.randomBytes = []) :
    askRandomByte s = (Config.randomByte s.env.asked, s.setEnv { s.env with asked := s.env.asked + 1 }) := by
  unfold askRandomByte; rw [h]

/-- A listed key answer is used up. -/
theorem askKeyPressed_cons {s : State} {b : Bool} {bs : List Bool} (k : Key) (h : s.env.keyAnswers = b :: bs) :
    askKeyPressed k s = (b, s.setEnv { s.env with asked := s.env.asked + 1, keyAnswers := bs }) := by
  simp only [askKeyPressed, h]

/-- With none listed the answer is the free value of the question's number and the key. -/
theorem askKeyPressed_nil {s : State} (k : Key) (h : s.env.keyAnswers = []) :
    askKeyPressed k s = (Config.keyPressed s.env.asked k, s.setEnv { s.env with asked := s.env.asked + 1 }) := by
  unfold askKeyPressed; rw [h]

/-- A listed poll answer is used up. -/
theorem askPollKey_cons {s : State} {k : Option Key} {ks : List (Option Key)} (h : s.env.pollAnswers = k :: ks) :
    askPollKey s = (k, s.setEnv { s.env with asked := s.env.asked + 1, pollAnswers := ks }) := by
  simp only [askPollKey, h]

/-- With none listed the answer is the free value of the question's number. -/
theorem askPollKey_nil {s : State} (h : s.env.pollAnswers = []) :
    askPollKey s = (Config.pollKey s.env.asked, s.setEnv { s.env with asked := s.env.asked + 1 }) := by
  unfold askPollKey; rw [h]

/-- A random byte drawn changes nothing but the environment's side. -/
theorem askRandomByte_snd (s : State) : ∃ e, (askRandomByte s).2 = s.setEnv e := by
  unfold askRandomByte; split <;> exact ⟨_, rfl⟩

/-- A key query changes nothing but the environment's side. -/
theorem askKeyPressed_snd (k : Key) (s : State) : ∃ e, (askKeyPressed k s).2 = s.setEnv e := by
  unfold askKeyPressed; split <;> exact ⟨_, rfl⟩

/-- A key poll changes nothing but the environment's side. -/
theorem askPollKey_snd (s : State) : ∃ e, (askPollKey s).2 = s.setEnv e := by
  unfold askPollKey; split <;> exact ⟨_, rfl⟩

/-! ### Fetch -/

/-- All a fetch can do: answer the big-endian word at PC, or raise `PcOutOfRange` (40_execution_cycle.md R75, R76). -/
theorem fetchWord_eq_ok_iff {s : State} {op : Word} :
    fetchWord s = .ok op ↔ fetchAllowed s.pc ∧ wordAt s.mem s.pc = op := by
  unfold fetchWord
  by_cases h : fetchAllowed s.pc
  · rw [if_pos h]; exact ⟨fun e => ⟨h, Except.ok.inj e⟩, fun e => congrArg _ e.2⟩
  · rw [if_neg h]; exact ⟨fun e => (by cases e), fun e => absurd e.1 h⟩

theorem fetchWord_of_not_allowed {s : State} (h : ¬fetchAllowed s.pc) :
    fetchWord s = .error { code := .pcOutOfRange, info := .pcValue s.pc } := by
  unfold fetchWord; rw [if_neg h]

/-! ### Load -/

/-- A ROM that is too long or unreadable is reported and changes nothing (60_exceptions.md R132). -/
theorem load_of_error {rom : List Byte} {readable : Bool} {s : State} (h : readable = false ∨ 3248 < rom.length) :
    load rom readable s = s.report (.loadError rom.length) := by
  unfold load; rw [if_pos h]

/-- The fields Load leaves (70_reset_and_hazards.md R147): all but `FB`, `dirty`, the parameters and the environment. -/
theorem load_of_fits {rom : List Byte} {s : State} (h : rom.length ≤ 3248) :
    load rom true s =
      { mem := loadedMemory s.params rom, v := Vector.replicate 16 (cellAfterLoad 8 s.params)
        i := cellAfterLoad 16 s.params, pc := 512, stack := [], dt := 0, st := 0, fb := s.fb, dirty := s.dirty
        run := .running, params := s.params, env := s.env } := by
  unfold load; rw [if_neg (by simp; omega)]

end Sys2Proof.Machine
end

