-- ==== Sys2Proof/Laws/Exec.lean ====
section
/-! SUPPORT. What an instruction can do, said once: it completes with its own effect, or takes one fault; and what a step can
do, by its kind. Invariants are derived from these, without unfolding `exec` again. -/

namespace Sys2Proof.Machine

/-- `t` is what completing `i` in `s` leaves, by the rule of each instruction. -/
def Completes (s t : State) : Instr → Prop
  | .cls => t = ((s.setFb Frame.allOff).setDirty true).advance
  | .ret => ∃ a, s.stack.getLast? = some a ∧ t = (s.setStack s.stack.dropLast).setPc a
  | .sys _ => False
  | .jp nnn => t = s.setPc (addrOf nnn)
  | .call nnn => s.stack.length < 48 ∧ t = (s.setStack (s.stack ++ [s.pc + 2])).setPc (addrOf nnn)
  | .seVxNn x nn => ∃ a, s.getV x = .holds a ∧ t = s.skipIf (a == nn)
  | .sneVxNn x nn => ∃ a, s.getV x = .holds a ∧ t = s.skipIf (a != nn)
  | .seVxVy x y => ∃ a b, s.getV x = .holds a ∧ s.getV y = .holds b ∧ t = s.skipIf (a == b)
  | .sneVxVy x y => ∃ a b, s.getV x = .holds a ∧ s.getV y = .holds b ∧ t = s.skipIf (a != b)
  | .ldVxNn x nn => t = (s.setV x nn).advance
  | .addVxNn x nn => ∃ a, s.getV x = .holds a ∧ t = (s.setV x (sumByte a nn)).advance
  | .ldVxVy x y => ∃ b, s.getV y = .holds b ∧ t = (s.setV x b).advance
  | .orVxVy x y => ∃ a b, s.getV x = .holds a ∧ s.getV y = .holds b ∧ t = (s.setV x (a ||| b)).advance
  | .andVxVy x y => ∃ a b, s.getV x = .holds a ∧ s.getV y = .holds b ∧ t = (s.setV x (a &&& b)).advance
  | .xorVxVy x y => ∃ a b, s.getV x = .holds a ∧ s.getV y = .holds b ∧ t = (s.setV x (a ^^^ b)).advance
  | .addVxVy x y => ∃ a b, s.getV x = .holds a ∧ s.getV y = .holds b ∧
      t = (s.setResultAndFlag x (sumByte a b) (carryFlag a b)).advance
  | .sub x y => ∃ a b, s.getV x = .holds a ∧ s.getV y = .holds b ∧
      t = (s.setResultAndFlag x (differenceByte a b) (noBorrowFlag a b)).advance
  | .shr x _ => ∃ a, s.getV x = .holds a ∧ t = (s.setResultAndFlag x (a >>> 1) (lsbFlag a)).advance
  | .subn x y => ∃ a b, s.getV x = .holds a ∧ s.getV y = .holds b ∧
      t = (s.setResultAndFlag x (differenceByte b a) (noBorrowFlag b a)).advance
  | .shl x _ => ∃ a, s.getV x = .holds a ∧ t = (s.setResultAndFlag x (a <<< 1) (msbFlag a)).advance
  | .ldINnn nnn => t = (s.setI (addrOf nnn)).advance
  | .jpV0 nnn => ∃ a, s.getV 0#4 = .holds a ∧ t = s.setPc (BitVec.ofNat 16 (nnn.toNat + a.toNat))
  | .rnd x nn => ∃ r e, askRandomByte s = (r, s.setEnv e) ∧ t = ((s.setEnv e).setV x (r &&& nn)).advance
  | .drw x y n => ∃ a b base rows, n ≠ 0#4 ∧ s.getV x = .holds a ∧ s.getV y = .holds b ∧ s.i = .holds base ∧
      readBytes s.mem base.toNat n.toNat = .ok rows ∧ t = s.afterDrawing (drawSprite s.fb a b rows)
  | .skp x => ∃ b k p e, s.getV x = .holds b ∧ keyOf b = .ok k ∧ askKeyPressed k s = (p, s.setEnv e) ∧
      t = (s.setEnv e).skipIf p
  | .sknp x => ∃ b k p e, s.getV x = .holds b ∧ keyOf b = .ok k ∧ askKeyPressed k s = (p, s.setEnv e) ∧
      t = (s.setEnv e).skipIf (!p)
  | .ldVxDt x => t = (s.setV x s.dt).advance
  | .ldVxK x => t = s.setRun (.waitKey x)
  | .ldDtVx x => ∃ b, s.getV x = .holds b ∧ t = (s.setDt b).advance
  | .ldStVx x => ∃ b, s.getV x = .holds b ∧ t = (s.setSt b).advance
  | .addIVx x => ∃ a v, s.i = .holds a ∧ s.getV x = .holds v ∧
      t = (s.setI (BitVec.ofNat 16 ((a.toNat + v.toNat) % 65536))).advance
  | .ldFVx x => ∃ v, s.getV x = .holds v ∧ t = (s.setI (glyphAddress v)).advance
  | .ldBVx x => ∃ v base m, s.getV x = .holds v ∧ s.i = .holds base ∧
      writeBytes s.mem base.toNat (decimalDigits v) = .ok m ∧ t = (s.setMem m).advance
  | .ldMemVx x => ∃ base vs m, s.i = .holds base ∧ readVs s 0 (blockSize x) = .ok vs ∧
      writeBytes s.mem base.toNat vs = .ok m ∧ t = (s.setMem m).advance
  | .ldVxMem x => ∃ base bs, s.i = .holds base ∧ readBytes s.mem base.toNat (blockSize x) = .ok bs ∧
      t = (s.setVs 0 bs).advance

/-- A fault an instruction can raise: none of fetch, none of Load, and an uninitialised register only where there is one. -/
def RaisedBy (s : State) (e : Trap) : Prop :=
  e.code ≠ .loadError ∧ e.code ≠ .pcOutOfRange ∧
    (e.code = .uninitialisedRead → (∃ x, s.getV x = .uninitialised) ∨ s.i = .uninitialised)

/-! ### The faults of the shared operations -/

theorem raisedBy_of_memRead {m : Memory} {a : Nat} {e : Trap} (s : State) (h : memRead m a = .error e) :
    RaisedBy s e := by
  unfold memRead at h; split at h
  · cases h
  · cases h; exact ⟨by simp [accessTrap], by simp [accessTrap], by simp [accessTrap]⟩

theorem raisedBy_of_memWrite {m : Memory} {a : Nat} {v : Byte} {e : Trap} (s : State) (h : memWrite m a v = .error e) :
    RaisedBy s e := by
  unfold memWrite at h; split at h
  · cases h
  · cases h; exact ⟨by simp [accessTrap], by simp [accessTrap], by simp [accessTrap]⟩

theorem raisedBy_of_readBytes (s : State) {m : Memory} {e : Trap} : ∀ (n a : Nat), readBytes m a n = .error e →
    RaisedBy s e := by
  intro n
  induction n with
  | zero => intro a h; cases h
  | succ n ih =>
    intro a h
    simp only [readBytes, bind, Except.bind, pure, Except.pure] at h
    split at h
    · rename_i e' he; cases h; exact raisedBy_of_memRead s he
    · split at h
      · rename_i e' he; cases h; exact ih _ he
      · cases h

theorem raisedBy_of_writeBytes (s : State) {e : Trap} (bs : List Byte) : ∀ (m : Memory) (a : Nat),
    writeBytes m a bs = .error e → RaisedBy s e := by
  induction bs with
  | nil => intro m a h; cases h
  | cons b bs ih =>
    intro m a h
    simp only [writeBytes, bind, Except.bind] at h
    split at h
    · rename_i e' he; cases h; exact raisedBy_of_memWrite s he
    · exact ih _ _ h

theorem raisedBy_of_readV {s : State} {x : RegIx} {e : Trap} (h : readV x s = .error e) : RaisedBy s e := by
  unfold readV at h; split at h
  · cases h
  · rename_i hx; cases h
    exact ⟨by simp [uninitTrap], by simp [uninitTrap], fun _ => .inl ⟨x, hx⟩⟩

theorem raisedBy_of_readI {s : State} {e : Trap} (h : readI s = .error e) : RaisedBy s e := by
  unfold readI at h; split at h
  · cases h
  · rename_i hi; cases h
    exact ⟨by simp [uninitTrap], by simp [uninitTrap], fun _ => .inr hi⟩

theorem raisedBy_of_readVs {s : State} {e : Trap} : ∀ (n k : Nat), readVs s k n = .error e → RaisedBy s e := by
  intro n
  induction n with
  | zero => intro k h; cases h
  | succ n ih =>
    intro k h
    simp only [readVs, bind, Except.bind, pure, Except.pure] at h
    split at h
    · rename_i e' he; cases h; exact raisedBy_of_readV he
    · split at h
      · rename_i e' he; cases h; exact ih _ he
      · cases h

theorem raisedBy_of_keyOf {s : State} {b : Byte} {e : Trap} (h : keyOf b = .error e) : RaisedBy s e := by
  unfold keyOf at h; split at h
  · cases h; exact ⟨by simp, by simp, by simp⟩
  · cases h

theorem raisedBy_decodeTrap (s : State) : RaisedBy s decodeTrap :=
  ⟨by simp [decodeTrap], by simp [decodeTrap], by simp [decodeTrap]⟩

theorem raisedBy_stackTrap (s : State) (i : FaultInfo) : RaisedBy s (stackTrap i) :=
  ⟨by simp [stackTrap], by simp [stackTrap], by simp [stackTrap]⟩

/-! ### The inversion of `exec` -/

/-- The pieces of a monadic computation that answers. -/
theorem bind_eq_ok {α β : Type} {r : Except Trap α} {f : α → Except Trap β} {b : β} :
    r >>= f = .ok b ↔ ∃ a, r = .ok a ∧ f a = .ok b := by
  cases r <;> simp [bind, Except.bind]

/-- The pieces of a monadic computation that raises. -/
theorem bind_eq_error {α β : Type} {r : Except Trap α} {f : α → Except Trap β} {e : Trap} :
    r >>= f = .error e ↔ r = .error e ∨ ∃ a, r = .ok a ∧ f a = .error e := by
  cases r <;> simp [bind, Except.bind]

@[simp] theorem pure_eq_ok {α : Type} {a b : α} : (pure a : Except Trap α) = .ok b ↔ a = b := by
  simp [pure, Except.pure]

@[simp] theorem pure_ne_error {α : Type} {a : α} {e : Trap} : ¬(pure a : Except Trap α) = .error e := by
  simp [pure, Except.pure]

/-- All an instruction can do: complete with its own effect, or take one fault as its only effect. -/
theorem exec_cases {i : Instr} {s t : State} (h : exec i s = .next t) :
    Completes s t i ∨ ∃ e, RaisedBy s e ∧ t = takeFault (some (encode i)) e s := by
  have key : ∀ r, exec i s = conclude i s r → (∀ t, r = .ok t → Completes s t i) →
      (∀ e, r = .error e → RaisedBy s e) →
      Completes s t i ∨ ∃ e, RaisedBy s e ∧ t = takeFault (some (encode i)) e s := by
    intro r hr hok herr
    rw [hr, conclude_eq_next_iff] at h
    rcases h with h | ⟨e, he, rfl⟩
    · exact .inl (hok t h)
    · exact .inr ⟨e, herr e he, rfl⟩
  cases i
  case cls | jp | ldVxNn | ldINnn | ldVxDt | ldVxK =>
    refine key (.ok _) rfl (fun t ht => ?_) (fun e he => ?_)
    · cases ht; rfl
    · cases he
  case ret =>
    refine key _ rfl (fun t ht => ?_) (fun e he => ?_)
    · split at ht
      · cases ht
      · rename_i a ha; cases ht; exact ⟨a, ha, rfl⟩
    · split at he
      · cases he; exact raisedBy_stackTrap s _
      · cases he
  case sys =>
    refine key (.error _) rfl (fun t ht => ?_) (fun e he => ?_)
    · cases ht
    · cases he; exact raisedBy_decodeTrap s
  case call =>
    refine key _ rfl (fun t ht => ?_) (fun e he => ?_)
    · split at ht
      · cases ht
      · rename_i hl; cases ht; exact ⟨Nat.lt_of_not_le hl, rfl⟩
    · split at he
      · cases he; exact raisedBy_stackTrap s _
      · cases he
  case drw x y n =>
    refine key _ rfl (fun t ht => ?_) (fun e he => ?_)
    · split at ht
      · cases ht
      · rename_i hn
        obtain ⟨a, ha, ht⟩ := bind_eq_ok.1 ht
        obtain ⟨b, hb, ht⟩ := bind_eq_ok.1 ht
        obtain ⟨base, hi, ht⟩ := bind_eq_ok.1 ht
        obtain ⟨rows, hr, ht⟩ := bind_eq_ok.1 ht
        exact ⟨a, b, base, rows, hn, readV_eq_ok_iff.1 ha, readV_eq_ok_iff.1 hb, readI_eq_ok_iff.1 hi, hr,
          (pure_eq_ok.1 ht).symm⟩
    · split at he
      · cases he; exact raisedBy_decodeTrap s
      · rcases bind_eq_error.1 he with he | ⟨a, -, he⟩
        · exact raisedBy_of_readV he
        rcases bind_eq_error.1 he with he | ⟨b, -, he⟩
        · exact raisedBy_of_readV he
        rcases bind_eq_error.1 he with he | ⟨base, -, he⟩
        · exact raisedBy_of_readI he
        rcases bind_eq_error.1 he with he | ⟨rows, -, he⟩
        · exact raisedBy_of_readBytes s _ _ he
        · exact absurd he pure_ne_error
  case seVxNn | sneVxNn | addVxNn | ldVxVy | shr | shl | jpV0 | ldDtVx | ldStVx | ldFVx =>
    refine key _ rfl (fun t ht => ?_) (fun e he => ?_)
    · obtain ⟨a, ha, ht⟩ := bind_eq_ok.1 ht
      exact ⟨a, readV_eq_ok_iff.1 ha, (pure_eq_ok.1 ht).symm⟩
    · rcases bind_eq_error.1 he with he | ⟨a, -, he⟩
      · exact raisedBy_of_readV he
      · exact absurd he pure_ne_error
  case seVxVy | sneVxVy | orVxVy | andVxVy | xorVxVy | addVxVy | sub | subn =>
    refine key _ rfl (fun t ht => ?_) (fun e he => ?_)
    · obtain ⟨a, ha, ht⟩ := bind_eq_ok.1 ht
      obtain ⟨b, hb, ht⟩ := bind_eq_ok.1 ht
      exact ⟨a, b, readV_eq_ok_iff.1 ha, readV_eq_ok_iff.1 hb, (pure_eq_ok.1 ht).symm⟩
    · rcases bind_eq_error.1 he with he | ⟨a, -, he⟩
      · exact raisedBy_of_readV he
      rcases bind_eq_error.1 he with he | ⟨b, -, he⟩
      · exact raisedBy_of_readV he
      · exact absurd he pure_ne_error
  case rnd x nn =>
    refine key (.ok _) rfl (fun t ht => ?_) (fun e he => ?_)
    · obtain ⟨env, henv⟩ := askRandomByte_snd s
      cases ht
      exact ⟨(askRandomByte s).1, env, Prod.ext rfl henv, by rw [henv]⟩
    · cases he
  case skp x | sknp x =>
    refine key _ rfl (fun t ht => ?_) (fun e he => ?_)
    · obtain ⟨b, hb, ht⟩ := bind_eq_ok.1 ht
      obtain ⟨k, hk, ht⟩ := bind_eq_ok.1 ht
      obtain ⟨env, henv⟩ := askKeyPressed_snd k s
      exact ⟨b, k, (askKeyPressed k s).1, env, readV_eq_ok_iff.1 hb, hk, Prod.ext rfl henv, by
        rw [← pure_eq_ok.1 ht, ← henv]⟩
    · rcases bind_eq_error.1 he with he | ⟨b, -, he⟩
      · exact raisedBy_of_readV he
      rcases bind_eq_error.1 he with he | ⟨k, -, he⟩
      · exact raisedBy_of_keyOf he
      · exact absurd he pure_ne_error
  case addIVx x =>
    refine key _ rfl (fun t ht => ?_) (fun e he => ?_)
    · obtain ⟨a, ha, ht⟩ := bind_eq_ok.1 ht
      obtain ⟨b, hb, ht⟩ := bind_eq_ok.1 ht
      exact ⟨a, b, readI_eq_ok_iff.1 ha, readV_eq_ok_iff.1 hb, (pure_eq_ok.1 ht).symm⟩
    · rcases bind_eq_error.1 he with he | ⟨a, -, he⟩
      · exact raisedBy_of_readI he
      rcases bind_eq_error.1 he with he | ⟨b, -, he⟩
      · exact raisedBy_of_readV he
      · exact absurd he pure_ne_error
  case ldBVx x =>
    refine key _ rfl (fun t ht => ?_) (fun e he => ?_)
    · obtain ⟨v, hv, ht⟩ := bind_eq_ok.1 ht
      obtain ⟨base, hb, ht⟩ := bind_eq_ok.1 ht
      obtain ⟨m, hm, ht⟩ := bind_eq_ok.1 ht
      exact ⟨v, base, m, readV_eq_ok_iff.1 hv, readI_eq_ok_iff.1 hb, hm, (pure_eq_ok.1 ht).symm⟩
    · rcases bind_eq_error.1 he with he | ⟨v, -, he⟩
      · exact raisedBy_of_readV he
      rcases bind_eq_error.1 he with he | ⟨base, -, he⟩
      · exact raisedBy_of_readI he
      rcases bind_eq_error.1 he with he | ⟨m, -, he⟩
      · exact raisedBy_of_writeBytes s _ _ _ he
      · exact absurd he pure_ne_error
  case ldMemVx x =>
    refine key _ rfl (fun t ht => ?_) (fun e he => ?_)
    · obtain ⟨base, hb, ht⟩ := bind_eq_ok.1 ht
      obtain ⟨vs, hv, ht⟩ := bind_eq_ok.1 ht
      obtain ⟨m, hm, ht⟩ := bind_eq_ok.1 ht
      exact ⟨base, vs, m, readI_eq_ok_iff.1 hb, hv, hm, (pure_eq_ok.1 ht).symm⟩
    · rcases bind_eq_error.1 he with he | ⟨base, -, he⟩
      · exact raisedBy_of_readI he
      rcases bind_eq_error.1 he with he | ⟨vs, -, he⟩
      · exact raisedBy_of_readVs _ _ he
      rcases bind_eq_error.1 he with he | ⟨m, -, he⟩
      · exact raisedBy_of_writeBytes s _ _ _ he
      · exact absurd he pure_ne_error
  case ldVxMem x =>
    refine key _ rfl (fun t ht => ?_) (fun e he => ?_)
    · obtain ⟨base, hb, ht⟩ := bind_eq_ok.1 ht
      obtain ⟨bs, hbs, ht⟩ := bind_eq_ok.1 ht
      exact ⟨base, bs, readI_eq_ok_iff.1 hb, hbs, (pure_eq_ok.1 ht).symm⟩
    · rcases bind_eq_error.1 he with he | ⟨base, -, he⟩
      · exact raisedBy_of_readI he
      rcases bind_eq_error.1 he with he | ⟨bs, -, he⟩
      · exact raisedBy_of_readBytes s _ _ he
      · exact absurd he pure_ne_error

/-! ### What a completed instruction leaves of the run state and memory -/

/-- A completed instruction leaves the run state alone, except that FX0A enters the key wait. -/
theorem Completes.run {s t : State} {i : Instr} (h : Completes s t i) :
    t.run = s.run ∨ ∃ x, i = .ldVxK x ∧ t = s.setRun (.waitKey x) := by
  cases i <;> simp only [Completes] at h
  case ldVxK x => exact .inr ⟨x, rfl, h⟩
  all_goals left
  all_goals repeat (first | subst h | obtain ⟨_, h⟩ := h)
  all_goals simp [State.afterDrawing]

/-- A completed instruction leaves memory alone, or wrote one accessible block of it. -/
theorem Completes.mem {s t : State} {i : Instr} (h : Completes s t i) :
    t.mem = s.mem ∨ ∃ base bs, writeBytes s.mem base bs = .ok t.mem := by
  cases i <;> simp only [Completes] at h
  case ldMemVx => obtain ⟨_, _, _, _, _, hw, rfl⟩ := h; exact .inr ⟨_, _, hw⟩
  case ldBVx => obtain ⟨_, _, _, _, _, hw, rfl⟩ := h; exact .inr ⟨_, _, hw⟩
  all_goals left
  all_goals repeat (first | subst h | obtain ⟨_, h⟩ := h)
  all_goals simp [State.afterDrawing]

/-! ### The inversion of `step` -/

/-- All a `Cycle` of a running machine can do: a fetch fault, the fault of an illegal word, or the instruction fetched. -/
theorem runningCycle_cases {s t : State} (h : runningCycle s = .next t) :
    (¬fetchAllowed s.pc ∧ t = takeFault none { code := .pcOutOfRange, info := .pcValue s.pc } s) ∨
    (fetchAllowed s.pc ∧ (∃ e, decodeWord (wordAt s.mem s.pc) = .error e) ∧
      t = takeFault (some (wordAt s.mem s.pc)) decodeTrap s) ∨
    (fetchAllowed s.pc ∧ ∃ i, decodeWord (wordAt s.mem s.pc) = .ok i ∧ exec i s = .next t) := by
  unfold runningCycle at h
  split at h
  · rename_i e he
    by_cases hf : fetchAllowed s.pc
    · rw [fetchWord, if_pos hf] at he; cases he
    · rw [fetchWord_of_not_allowed hf] at he; cases he; cases h; exact .inl ⟨hf, rfl⟩
  · rename_i op hop
    obtain ⟨hf, rfl⟩ := fetchWord_eq_ok_iff.1 hop
    split at h
    · rename_i e he; cases h; exact .inr (.inl ⟨hf, ⟨e, he⟩, rfl⟩)
    · rename_i i hi; exact .inr (.inr ⟨hf, i, hi, h⟩)

/-- All a step can do, by the kind the environment has chosen and the run state. -/
theorem step_cases {s t : State} (h : step s = .next t) :
    (nextKind s = .cycle ∧ s.run = .running ∧ runningCycle s.dequeued = .next t) ∨
    (nextKind s = .cycle ∧ ∃ x, s.run = .waitKey x ∧ t = waitCycle x s.dequeued) ∨
    (nextKind s = .tick ∧ t = tick s.dequeued) ∨
    (nextKind s = .present ∧ t = present s.dequeued) ∨
    (nextKind s = .shutdown ∧ t = shutdown s.dequeued) ∨
    (∃ rom readable, nextKind s = .load rom readable ∧ t = load rom readable s.dequeued) := by
  unfold step performNext perform at h
  split at h
  · rename_i hk
    unfold cycle at h
    split at h
    · rename_i hr; exact .inl ⟨hk, hr, h⟩
    · rename_i x hr; cases h; exact .inr (.inl ⟨hk, x, hr, rfl⟩)
    all_goals cases h
  · rename_i hk; cases h; exact .inr (.inr (.inl ⟨hk, rfl⟩))
  · rename_i hk; cases h; exact .inr (.inr (.inr (.inl ⟨hk, rfl⟩)))
  · rename_i hk; cases h; exact .inr (.inr (.inr (.inr (.inl ⟨hk, rfl⟩))))
  · rename_i rom readable hk; cases h; exact .inr (.inr (.inr (.inr (.inr ⟨rom, readable, hk, rfl⟩))))

end Sys2Proof.Machine
end

