-- ==== Sys2Proof/Laws/PerInstr.lean ====
section
/-! SUPPORT. A statement made per instruction: the family nibble of every instruction's word (30_encoding.md R63, R66). -/

namespace Sys2Proof.Laws.FamilyNibble

/-- The family `F` under which the table of 30_encoding.md R66 lists an instruction. -/
def family : Instr → Nibble
  | .cls | .ret | .sys _ => 0x0
  | .jp _ => 0x1
  | .call _ => 0x2
  | .seVxNn _ _ => 0x3
  | .sneVxNn _ _ => 0x4
  | .seVxVy _ _ => 0x5
  | .ldVxNn _ _ => 0x6
  | .addVxNn _ _ => 0x7
  | .ldVxVy _ _ | .orVxVy _ _ | .andVxVy _ _ | .xorVxVy _ _ | .addVxVy _ _
  | .sub _ _ | .shr _ _ | .subn _ _ | .shl _ _ => 0x8
  | .sneVxVy _ _ => 0x9
  | .ldINnn _ => 0xA
  | .jpV0 _ => 0xB
  | .rnd _ _ => 0xC
  | .drw _ _ _ => 0xD
  | .skp _ | .sknp _ => 0xE
  | .ldVxDt _ | .ldVxK _ | .ldDtVx _ | .ldStVx _ | .addIVx _ | .ldFVx _ | .ldBVx _ | .ldMemVx _ | .ldVxMem _ => 0xF

/-- The word of an instruction lies in the family that lists it. -/
def Statement (i : Instr) : Prop := fieldF (encode i) = family i

theorem cls : Statement .cls := rfl
theorem ret : Statement .ret := rfl
theorem sys (nnn : Addr12) : Statement (.sys nnn) := fieldF_wordNNN ..
theorem jp (nnn : Addr12) : Statement (.jp nnn) := fieldF_wordNNN ..
theorem call (nnn : Addr12) : Statement (.call nnn) := fieldF_wordNNN ..
theorem seVxNn (x : RegIx) (nn : Byte) : Statement (.seVxNn x nn) := fieldF_wordXNN ..
theorem sneVxNn (x : RegIx) (nn : Byte) : Statement (.sneVxNn x nn) := fieldF_wordXNN ..
theorem seVxVy (x y : RegIx) : Statement (.seVxVy x y) := fieldF_wordXYN ..
theorem ldVxNn (x : RegIx) (nn : Byte) : Statement (.ldVxNn x nn) := fieldF_wordXNN ..
theorem addVxNn (x : RegIx) (nn : Byte) : Statement (.addVxNn x nn) := fieldF_wordXNN ..
theorem ldVxVy (x y : RegIx) : Statement (.ldVxVy x y) := fieldF_wordXYN ..
theorem orVxVy (x y : RegIx) : Statement (.orVxVy x y) := fieldF_wordXYN ..
theorem andVxVy (x y : RegIx) : Statement (.andVxVy x y) := fieldF_wordXYN ..
theorem xorVxVy (x y : RegIx) : Statement (.xorVxVy x y) := fieldF_wordXYN ..
theorem addVxVy (x y : RegIx) : Statement (.addVxVy x y) := fieldF_wordXYN ..
theorem sub (x y : RegIx) : Statement (.sub x y) := fieldF_wordXYN ..
theorem shr (x y : RegIx) : Statement (.shr x y) := fieldF_wordXYN ..
theorem subn (x y : RegIx) : Statement (.subn x y) := fieldF_wordXYN ..
theorem shl (x y : RegIx) : Statement (.shl x y) := fieldF_wordXYN ..
theorem sneVxVy (x y : RegIx) : Statement (.sneVxVy x y) := fieldF_wordXYN ..
theorem ldINnn (nnn : Addr12) : Statement (.ldINnn nnn) := fieldF_wordNNN ..
theorem jpV0 (nnn : Addr12) : Statement (.jpV0 nnn) := fieldF_wordNNN ..
theorem rnd (x : RegIx) (nn : Byte) : Statement (.rnd x nn) := fieldF_wordXNN ..
theorem drw (x y : RegIx) (n : Nibble) : Statement (.drw x y n) := fieldF_wordXYN ..
theorem skp (x : RegIx) : Statement (.skp x) := fieldF_wordXNN ..
theorem sknp (x : RegIx) : Statement (.sknp x) := fieldF_wordXNN ..
theorem ldVxDt (x : RegIx) : Statement (.ldVxDt x) := fieldF_wordXNN ..
theorem ldVxK (x : RegIx) : Statement (.ldVxK x) := fieldF_wordXNN ..
theorem ldDtVx (x : RegIx) : Statement (.ldDtVx x) := fieldF_wordXNN ..
theorem ldStVx (x : RegIx) : Statement (.ldStVx x) := fieldF_wordXNN ..
theorem addIVx (x : RegIx) : Statement (.addIVx x) := fieldF_wordXNN ..
theorem ldFVx (x : RegIx) : Statement (.ldFVx x) := fieldF_wordXNN ..
theorem ldBVx (x : RegIx) : Statement (.ldBVx x) := fieldF_wordXNN ..
theorem ldMemVx (x : RegIx) : Statement (.ldMemVx x) := fieldF_wordXNN ..
theorem ldVxMem (x : RegIx) : Statement (.ldVxMem x) := fieldF_wordXNN ..

end Sys2Proof.Laws.FamilyNibble
end

