-- ==== Sys2Proof/Laws/Sprite.lean ====
section
/-! SUPPORT. The pixels of the framebuffer: a pixel read after a pixel write, and what one toggle does. -/

namespace Sys2Proof.Machine

/-- Every pixel of a cleared frame is off. -/
@[simp] theorem Frame.pixel_allOff (x : Fin 64) (y : Fin 32) : Frame.allOff.pixel x y = false := by
  simp [Frame.pixel, Frame.allOff, Vector.get_eq_getElem]

/-- A pixel read after a pixel write. -/
theorem Frame.pixel_setPixel (f : Frame) (x px : Fin 64) (y py : Fin 32) (b : Bool) :
    (f.setPixel x y b).pixel px py = if px = x ∧ py = y then b else f.pixel px py := by
  unfold Frame.pixel Frame.setPixel
  simp only [Vector.get_eq_getElem]
  by_cases hy : py = y
  · subst hy
    by_cases hx : px = x
    · subst hx; simp
    · have : x.val ≠ px.val := fun e => hx (Fin.ext e.symm)
      simp [Vector.getElem_set_ne, this, hx]
  · have : y.val ≠ py.val := fun e => hy (Fin.ext e.symm)
    simp [Vector.getElem_set_ne, this, hy]

/-- Two frames with the same pixels are the same frame. -/
theorem Frame.ext_pixel {f g : Frame} (h : ∀ x y, f.pixel x y = g.pixel x y) : f = g := by
  apply Vector.ext; intro j hj
  apply Vector.ext; intro k hk
  exact h ⟨k, hk⟩ ⟨j, hj⟩

/-- What a toggle does to a pixel (41_display.md R90). -/
theorem Drawing.pixel_toggle (d : Drawing) (x px : Fin 64) (y py : Fin 32) :
    (d.toggle x y).fb.pixel px py = if px = x ∧ py = y then !d.fb.pixel px py else d.fb.pixel px py := by
  rw [Drawing.toggle, Frame.pixel_setPixel]
  split
  · rename_i h; rw [h.1, h.2]
  · rfl

@[simp] theorem Drawing.collision_toggle (d : Drawing) (x : Fin 64) (y : Fin 32) :
    (d.toggle x y).collision = (d.collision || d.fb.pixel x y) := rfl

@[simp] theorem Drawing.changed_toggle (d : Drawing) (x : Fin 64) (y : Fin 32) : (d.toggle x y).changed = true := rfl

/-! ### A whole sprite

No pixel is visited twice (41_display.md R88), so the closed form of a draw needs no order. -/

/-- One row, over any columns that are distinct modulo 64: each pixel under a 1 bit is toggled, every other is left; the
collision and changed bits say whether a toggled pixel was on, and whether there was one. -/
theorem Drawing.foldl_columns (x0 : Nat) (y : Fin 32) (row : Byte) (cs : List Nat) : ∀ d : Drawing,
    cs.Pairwise (fun a b => wrapX (x0 + a) ≠ wrapX (x0 + b)) →
    let d' := cs.foldl (fun d c => if rowBit row c then d.toggle (wrapX (x0 + c)) y else d) d
    (∀ px py, d'.fb.pixel px py =
      (d.fb.pixel px py ^^ decide (py = y ∧ ∃ c ∈ cs, rowBit row c = true ∧ px = wrapX (x0 + c)))) ∧
    (d'.collision = true ↔
      d.collision = true ∨ ∃ c ∈ cs, rowBit row c = true ∧ d.fb.pixel (wrapX (x0 + c)) y = true) ∧
    (d'.changed = true ↔ d.changed = true ∨ ∃ c ∈ cs, rowBit row c = true) := by
  induction cs with
  | nil => intro d _; simp
  | cons c cs ih =>
    intro d hcs
    obtain ⟨hc, hcs⟩ := List.pairwise_cons.1 hcs
    obtain ⟨hp, hcol, hch⟩ := ih (if rowBit row c then d.toggle (wrapX (x0 + c)) y else d) hcs
    simp only [List.foldl_cons]
    by_cases hb : rowBit row c = true
    · simp only [hb, if_true] at hp hcol hch ⊢
      refine ⟨fun px py => ?_, ?_, ?_⟩
      · rw [hp, Drawing.pixel_toggle]
        by_cases hpx : px = wrapX (x0 + c) ∧ py = y
        · obtain ⟨rfl, rfl⟩ := hpx
          have : ¬∃ e ∈ cs, rowBit row e = true ∧ wrapX (x0 + c) = wrapX (x0 + e) := by
            rintro ⟨e, he, -, heq⟩; exact hc e he heq
          simp [hb, this]
        · rw [if_neg hpx]
          congr 1
          refine decide_eq_decide.2 (and_congr_right fun hy => ?_)
          have : px ≠ wrapX (x0 + c) := fun e => hpx ⟨e, hy⟩
          simp [this]
      · rw [hcol]
        have hne : ∀ e ∈ cs, (d.toggle (wrapX (x0 + c)) y).fb.pixel (wrapX (x0 + e)) y
            = d.fb.pixel (wrapX (x0 + e)) y := fun e he => by
          rw [Drawing.pixel_toggle, if_neg]; rintro ⟨h, -⟩; exact hc e he h.symm
        simp only [Drawing.collision_toggle, Bool.or_eq_true, List.mem_cons, exists_eq_or_imp, hb, true_and, or_assoc]
        refine or_congr_right (or_congr_right ?_)
        constructor
        · rintro ⟨e, he, h1, h2⟩; exact ⟨e, he, h1, by rwa [hne e he] at h2⟩
        · rintro ⟨e, he, h1, h2⟩; exact ⟨e, he, h1, by rwa [hne e he]⟩
      · rw [hch]; simp [hb]
    · have hb' : rowBit row c = false := by simpa using hb
      simp only [hb', Bool.false_eq_true, if_false] at hp hcol hch ⊢
      refine ⟨fun px py => ?_, ?_, ?_⟩
      · rw [hp]; simp [hb']
      · rw [hcol]; simp [hb']
      · rw [hch]; simp [hb']

/-- The 8 column offsets are distinct modulo 64 (41_display.md R88). -/
theorem columns_distinct (x0 : Nat) :
    (List.range 8).Pairwise (fun a b => wrapX (x0 + a) ≠ wrapX (x0 + b)) := by
  refine List.Pairwise.imp_of_mem ?_ List.pairwise_lt_range
  intro a b ha hb hab h
  have := congrArg Fin.val h
  simp only [wrapX, Fin.val_ofNat, List.mem_range] at *
  omega

/-- A whole sprite of at most 32 rows: a pixel is toggled exactly if a 1 bit of the sprite falls on it, the collision bit
says whether one of those was on, the changed bit whether there was one (41_display.md R86, R87, R90). -/
theorem Drawing.rows_spec (x0 : Nat) (rows : List Byte) : ∀ (y : Nat) (d : Drawing), rows.length ≤ 32 →
    (∀ px py, (d.rows x0 y rows).fb.pixel px py =
      (d.fb.pixel px py ^^ decide (∃ r : Fin rows.length, ∃ c : Fin 8, rowBit rows[r] c = true ∧
        px = wrapX (x0 + c) ∧ py = wrapY (y + r)))) ∧
    ((d.rows x0 y rows).collision = true ↔ d.collision = true ∨ ∃ r : Fin rows.length, ∃ c : Fin 8,
        rowBit rows[r] c = true ∧ d.fb.pixel (wrapX (x0 + c)) (wrapY (y + r)) = true) ∧
    ((d.rows x0 y rows).changed = true ↔ d.changed = true ∨ ∃ r : Fin rows.length, ∃ c : Fin 8,
        rowBit rows[r] c = true) := by
  induction rows with
  | nil => intro y d _; simp [Drawing.rows]
  | cons row rest ih =>
    intro y d hlen
    rw [List.length_cons] at hlen
    obtain ⟨hp, hcol, hch⟩ := ih (y + 1) (d.row x0 (wrapY y) row) (by omega)
    obtain ⟨gp, gcol, gch⟩ := Drawing.foldl_columns x0 (wrapY y) row (List.range 8) d (columns_distinct x0)
    have hr : (List.range 8).foldl (fun d c => if rowBit row c then d.toggle (wrapX (x0 + c)) (wrapY y) else d) d
        = d.row x0 (wrapY y) row := rfl
    simp only [hr] at gp gcol gch
    have hex : ∀ P : Nat → Prop, (∃ c ∈ List.range 8, P c) ↔ ∃ c : Fin 8, P c := fun P => by
      constructor
      · rintro ⟨c, hc, h⟩; exact ⟨⟨c, List.mem_range.1 hc⟩, h⟩
      · rintro ⟨c, h⟩; exact ⟨c, List.mem_range.2 c.2, h⟩
    simp only [hex] at gp gcol gch
    have hrow : ∀ Q : Nat → Byte → Prop, (∃ r : Fin (rest.length + 1), Q r ((row :: rest)[r.val]'r.2)) ↔
        Q 0 row ∨ ∃ r : Fin rest.length, Q (r + 1) rest[r] := fun Q => by
      constructor
      · rintro ⟨⟨r, hr⟩, h⟩
        cases r with
        | zero => exact .inl h
        | succ r => exact .inr ⟨⟨r, by omega⟩, h⟩
      · rintro (h | ⟨r, h⟩)
        · exact ⟨⟨0, by omega⟩, h⟩
        · exact ⟨⟨r + 1, by omega⟩, h⟩
    have hy : ∀ r : Nat, r < rest.length → wrapY (y + 1 + r) ≠ wrapY y := fun r hr h => by
      have := congrArg Fin.val h
      simp only [wrapY, Fin.val_ofNat] at this
      omega
    have hshift : ∀ r : Nat, y + (r + 1) = y + 1 + r := fun r => by omega
    refine ⟨fun px py => ?_, ?_, ?_⟩
    · rw [Drawing.rows, hp, gp, Bool.xor_assoc]
      congr 1
      have key : (∃ r : Fin (row :: rest).length, ∃ c : Fin 8, rowBit (row :: rest)[r] c = true ∧
            px = wrapX (x0 + c) ∧ py = wrapY (y + r)) ↔
          (py = wrapY y ∧ ∃ c : Fin 8, rowBit row c = true ∧ px = wrapX (x0 + c)) ∨
          (∃ r : Fin rest.length, ∃ c : Fin 8, rowBit rest[r] c = true ∧
            px = wrapX (x0 + c) ∧ py = wrapY (y + 1 + r)) := by
        refine (hrow fun r b => ∃ c : Fin 8, rowBit b c = true ∧
          px = wrapX (x0 + c) ∧ py = wrapY (y + r)).trans (or_congr ?_ ?_)
        · constructor
          · rintro ⟨c, h1, h2, h3⟩; exact ⟨h3, c, h1, h2⟩
          · rintro ⟨h3, c, h1, h2⟩; exact ⟨c, h1, h2, h3⟩
        · refine exists_congr fun r => ?_
          rw [hshift]
      rw [decide_eq_decide.2 key]
      by_cases h1 : py = wrapY y ∧ ∃ c : Fin 8, rowBit row c = true ∧ px = wrapX (x0 + c)
      · have h2 : ¬∃ r : Fin rest.length, ∃ c : Fin 8, rowBit rest[r] c = true ∧
            px = wrapX (x0 + c) ∧ py = wrapY (y + 1 + r) := by
          rintro ⟨r, c, -, -, h⟩; exact hy r r.2 (h.symm.trans h1.1)
        rw [decide_eq_true h1, decide_eq_false h2, decide_eq_true (Or.inl h1)]; rfl
      · by_cases h2 : ∃ r : Fin rest.length, ∃ c : Fin 8, rowBit rest[r] c = true ∧
            px = wrapX (x0 + c) ∧ py = wrapY (y + 1 + r)
        · rw [decide_eq_false h1, decide_eq_true h2, decide_eq_true (Or.inr h2)]; rfl
        · rw [decide_eq_false h1, decide_eq_false h2, decide_eq_false (by rintro (h | h); exact h1 h; exact h2 h)]; rfl
    · rw [Drawing.rows, hcol, gcol, or_assoc]
      refine or_congr_right ?_
      refine Iff.trans ?_ (hrow fun r b => ∃ c : Fin 8, rowBit b c = true ∧
        d.fb.pixel (wrapX (x0 + c)) (wrapY (y + r)) = true).symm
      refine or_congr Iff.rfl (exists_congr fun r => exists_congr fun c => and_congr_right fun _ => ?_)
      rw [hshift r, gp, decide_eq_false (fun h => hy r r.2 h.1), Bool.xor_false]
    · rw [Drawing.rows, hch, gch, or_assoc]
      refine or_congr_right ?_
      exact (hrow fun r b => ∃ c : Fin 8, rowBit b c = true).symm

end Sys2Proof.Machine
end

