-- ==== Sys2Proof/Tests/Slice0.lean ====
section
/-! SUPPORT. The model's own tests: ill-formed terms refused, one word per instruction decoded, one or two steps per
instruction, and for every statement with hypotheses a concrete state and operands that meet them. Expected results are those
of 95_test_vectors.md, or worked out by hand from the rule a test names. -/

open Sys2Proof Sys2Proof.Machine

namespace Sys2Proof.Tests

/-! ### Helpers -/

/-- The state after a Load of the empty ROM with `REGS_ZERO_AT_RESET` false: the start state of 95_test_vectors.md. -/
def fresh : State :=
  { State.reset with
    v := Vector.replicate 16 .uninitialised
    i := .uninitialised
    params := { Params.ofReset with regsZeroAtReset := false } }

/-- Registers written. -/
def regs (s : State) (vs : List (RegIx × Byte)) : State := vs.foldl (fun s p => s.setV p.1 p.2) s

/-- A running state whose next step fetches the word at the address. -/
def at_ (pc : Word) (op : Nat) (s : State) : State := (s.setPc pc).withFetchWord 16 op

/-- The environment's coming steps, replaced. -/
def next_ (ks : List MachineStep) (s : State) : State := s.setEnv { s.env with schedule := ks }

/-- What a next state shows. -/
def after {α : Type} (o : Host.Outcome State Fault Refusal) (f : State → α) : Option α :=
  match o with
  | .next t => some (f t)
  | .fault _ => none
  | .refused _ => none

/-- A step that took a fault: its record, and the PC it left. -/
def faulted (code : FaultCode) (pc op : Word) (info : FaultInfo) : Option (RunState × Word) :=
  some (.faulted { code := code, pc := pc, opcode := some op, info := info }, pc)

/-- The run state and the PC. -/
def runPc (t : State) : RunState × Word := (t.run, t.pc)

/-- A faulted state: a DecodeError of the word 0000 at 0x200. -/
def faultedState : State :=
  fresh.setRun (.faulted { code := .decodeError, pc := 0x200, opcode := some 0, info := .none })

/-! ### Well-formedness: the ill-formed terms are refused -/

theorem test_illFormed_sys_cls : (Instr.sys 0x0E0).wellFormed = false := by decide
theorem test_illFormed_sys_ret : (Instr.sys 0x0EE).wellFormed = false := by decide
theorem test_illFormed_drw_height0 : (Instr.drw 1 2 0).wellFormed = false := by decide
theorem test_wellFormed_neighbours : (Instr.sys 0x0E1).wellFormed ∧ (Instr.sys 0x0EF).wellFormed ∧
    (Instr.drw 1 2 1).wellFormed := by decide

/-! ### Decoding: one word per instruction, its bits written out from the patterns of 30_encoding.md R66 -/

theorem test_decode_cls : decodeWord 0b0000000011100000 = .ok .cls := by decide
theorem test_decode_ret : decodeWord 0b0000000011101110 = .ok .ret := by decide
theorem test_decode_sys : decodeWord 0b0000000100100011 = .ok (.sys 0x123) := by decide
theorem test_decode_jp : decodeWord 0b0001001000110100 = .ok (.jp 0x234) := by decide
theorem test_decode_call : decodeWord 0b0010001100000000 = .ok (.call 0x300) := by decide
theorem test_decode_seVxNn : decodeWord 0b0011001100010010 = .ok (.seVxNn 3 0x12) := by decide
theorem test_decode_sneVxNn : decodeWord 0b0100001100010010 = .ok (.sneVxNn 3 0x12) := by decide
theorem test_decode_seVxVy : decodeWord 0b0101000100100000 = .ok (.seVxVy 1 2) := by decide
theorem test_decode_ldVxNn : decodeWord 0b0110101001000010 = .ok (.ldVxNn 10 0x42) := by decide
theorem test_decode_addVxNn : decodeWord 0b0111111100000001 = .ok (.addVxNn 15 1) := by decide
theorem test_decode_ldVxVy : decodeWord 0b1000000101010000 = .ok (.ldVxVy 1 5) := by decide
theorem test_decode_or : decodeWord 0b1000000100100001 = .ok (.orVxVy 1 2) := by decide
theorem test_decode_and : decodeWord 0b1000000100100010 = .ok (.andVxVy 1 2) := by decide
theorem test_decode_xor : decodeWord 0b1000000100100011 = .ok (.xorVxVy 1 2) := by decide
theorem test_decode_addVxVy : decodeWord 0b1000111100010100 = .ok (.addVxVy 15 1) := by decide
theorem test_decode_sub : decodeWord 0b1000000100100101 = .ok (.sub 1 2) := by decide
theorem test_decode_shr : decodeWord 0b1000001010100110 = .ok (.shr 2 10) := by decide
theorem test_decode_subn : decodeWord 0b1000000100100111 = .ok (.subn 1 2) := by decide
theorem test_decode_shl : decodeWord 0b1000001000001110 = .ok (.shl 2 0) := by decide
theorem test_decode_sneVxVy : decodeWord 0b1001000100100000 = .ok (.sneVxVy 1 2) := by decide
theorem test_decode_ldINnn : decodeWord 0b1010001011110000 = .ok (.ldINnn 0x2F0) := by decide
theorem test_decode_jpV0 : decodeWord 0b1011001100000000 = .ok (.jpV0 0x300) := by decide
theorem test_decode_rnd : decodeWord 0b1100001100001111 = .ok (.rnd 3 0x0F) := by decide
theorem test_decode_drw : decodeWord 0b1101000100100101 = .ok (.drw 1 2 5) := by decide
theorem test_decode_skp : decodeWord 0b1110010110011110 = .ok (.skp 5) := by decide
theorem test_decode_sknp : decodeWord 0b1110010110100001 = .ok (.sknp 5) := by decide
theorem test_decode_ldVxDt : decodeWord 0b1111000100000111 = .ok (.ldVxDt 1) := by decide
theorem test_decode_ldVxK : decodeWord 0b1111001000001010 = .ok (.ldVxK 2) := by decide
theorem test_decode_ldDtVx : decodeWord 0b1111000000010101 = .ok (.ldDtVx 0) := by decide
theorem test_decode_ldStVx : decodeWord 0b1111000000011000 = .ok (.ldStVx 0) := by decide
theorem test_decode_addIVx : decodeWord 0b1111001100011110 = .ok (.addIVx 3) := by decide
theorem test_decode_ldFVx : decodeWord 0b1111000000101001 = .ok (.ldFVx 0) := by decide
theorem test_decode_ldBVx : decodeWord 0b1111000000110011 = .ok (.ldBVx 0) := by decide
theorem test_decode_ldMemVx : decodeWord 0b1111001101010101 = .ok (.ldMemVx 3) := by decide
theorem test_decode_ldVxMem : decodeWord 0b1111001001100101 = .ok (.ldVxMem 2) := by decide
theorem test_decode_refused : decodeWord 0x5121 = .error .selector5 ∧ decodeWord 0x812F = .error .selector8 ∧
    decodeWord 0x9121 = .error .selector9 ∧ decodeWord 0xD010 = .error .zeroHeight ∧
    decodeWord 0xE59F = .error .selectorE ∧ decodeWord 0xF066 = .error .selectorF ∧
    decodeBytes [0x12] = .error .truncated := by decide

/-! ### One step (95_test_vectors.md L1, L2) -/

theorem test_cls : after (step (at_ 0x200 0x00E0 (fresh.setFb (Frame.allOff.setPixel 63 31 true))))
    (fun t => (t.fb.pixel 63 31, t.dirty, t.pc)) = some (false, true, 0x202) := by decide
theorem test_ret : after (step (at_ 0x300 0x00EE (fresh.setStack [0x208, 0x206])))
    (fun t => (t.stack, t.pc)) = some ([0x208], 0x206) := by decide
theorem test_ret_empty : after (step (at_ 0x200 0x00EE fresh)) runPc = faulted .stackError 0x200 0x00EE .pop := by decide
theorem test_sys : after (step (at_ 0x200 0x0123 fresh)) runPc = faulted .decodeError 0x200 0x0123 .none := by decide
theorem test_sys_0000 : after (step State.reset) runPc = faulted .decodeError 0x200 0x0000 .none := by decide
theorem test_jp : after (step (at_ 0xEAE 0x1234 fresh)) (·.pc) = some 0x234 := by decide
theorem test_jp_self : after (step (at_ 0x200 0x1200 fresh)) runPc = some (.running, 0x200) := by decide
theorem test_call : after (step (at_ 0x204 0x2300 (fresh.setStack (List.replicate 47 0x222))))
    (fun t => (t.stack.getLast?, t.stack.length, t.pc)) = some (some 0x206, 48, 0x300) := by decide
theorem test_call_full : after (step (at_ 0x200 0x2300 (fresh.setStack (List.replicate 48 0x202)))) runPc =
    faulted .stackError 0x200 0x2300 .push := by decide
theorem test_seVxNn : after (step (at_ 0x200 0x3312 (regs fresh [(3, 0x12)]))) (·.pc) = some 0x204 := by decide
theorem test_seVxNn_uninitialised : after (step (at_ 0x200 0x3300 fresh)) runPc =
    faulted .uninitialisedRead 0x200 0x3300 (.register (.v 3)) := by decide
theorem test_sneVxNn : after (step (at_ 0x200 0x4312 (regs fresh [(3, 0x12)]))) (·.pc) = some 0x202 := by decide
theorem test_sneVxNn_skips : after (step (at_ 0x200 0x4300 (regs fresh [(3, 0x12)]))) (·.pc) = some 0x204 := by decide
theorem test_seVxVy : after (step (at_ 0x200 0x5120 (regs fresh [(1, 5), (2, 6)]))) (·.pc) = some 0x202 := by decide
theorem test_seVxVy_same : after (step (at_ 0x200 0x5110 (regs fresh [(1, 9)]))) (·.pc) = some 0x204 := by decide
theorem test_sneVxVy : after (step (at_ 0x200 0x9120 (regs fresh [(1, 5), (2, 6)]))) (·.pc) = some 0x204 := by decide
theorem test_sneVxVy_equal : after (step (at_ 0x200 0x9120 (regs fresh [(1, 5), (2, 5)]))) (·.pc) = some 0x202 := by decide
theorem test_jpV0 : after (step (at_ 0x200 0xBFFF (regs fresh [(0, 0xFF)]))) (·.pc) = some 0x10FE := by decide
theorem test_jpV0_uninitialised : after (step (at_ 0x200 0xB300 (regs fresh [(3, 1)]))) runPc =
    faulted .uninitialisedRead 0x200 0xB300 (.register (.v 0)) := by decide
theorem test_ldVxNn : after (step (at_ 0x200 0x6A42 fresh)) (fun t => (t.getV 10, t.pc)) = some (.holds 0x42, 0x202) := by
  decide
theorem test_addVxNn : after (step (at_ 0x200 0x7001 (regs fresh [(0, 0xFF), (15, 7)]))) (fun t => (t.getV 0, t.getV 15)) =
    some (.holds 0, .holds 7) := by decide
theorem test_addVxNn_vf : after (step (at_ 0x200 0x7F01 (regs fresh [(15, 0xFF)]))) (·.getV 15) = some (.holds 0) := by
  decide
theorem test_ldVxVy : after (step (at_ 0x200 0x8150 (regs fresh [(5, 0x33)]))) (·.getV 1) = some (.holds 0x33) := by decide
theorem test_or : after (step (at_ 0x200 0x8121 (regs fresh [(1, 0x0F), (2, 0xF0), (15, 9)])))
    (fun t => (t.getV 1, t.getV 15)) = some (.holds 0xFF, .holds 9) := by decide
theorem test_and : after (step (at_ 0x200 0x8122 (regs fresh [(1, 0x3C), (2, 0x0F)]))) (·.getV 1) = some (.holds 0x0C) := by
  decide
theorem test_xor : after (step (at_ 0x200 0x8123 (regs fresh [(1, 0x3C), (2, 0x0F)]))) (·.getV 1) = some (.holds 0x33) := by
  decide
theorem test_addVxVy : after (step (at_ 0x200 0x8124 (regs fresh [(1, 100), (2, 200)]))) (fun t => (t.getV 1, t.getV 15)) =
    some (.holds 0x2C, .holds 1) := by decide
theorem test_addVxVy_vf : after (step (at_ 0x200 0x8F14 (regs fresh [(15, 0x10), (1, 0xF5)]))) (·.getV 15) =
    some (.holds 1) := by decide
theorem test_sub : after (step (at_ 0x200 0x8125 (regs fresh [(1, 50), (2, 80)]))) (fun t => (t.getV 1, t.getV 15)) =
    some (.holds 0xE2, .holds 0) := by decide
theorem test_sub_equal : after (step (at_ 0x200 0x8115 (regs fresh [(1, 7)]))) (fun t => (t.getV 1, t.getV 15)) =
    some (.holds 0, .holds 1) := by decide
theorem test_shr : after (step (at_ 0x200 0x82A6 (regs fresh [(2, 0x80)]))) (fun t => (t.getV 2, t.getV 15)) =
    some (.holds 0x40, .holds 0) := by decide
theorem test_shr_vf : after (step (at_ 0x200 0x8F06 (regs fresh [(15, 3)]))) (·.getV 15) = some (.holds 1) := by decide
theorem test_subn : after (step (at_ 0x200 0x8127 (regs fresh [(1, 50), (2, 80)]))) (fun t => (t.getV 1, t.getV 15)) =
    some (.holds 0x1E, .holds 1) := by decide
theorem test_subn_borrow : after (step (at_ 0x200 0x8127 (regs fresh [(1, 80), (2, 50)]))) (fun t => (t.getV 1, t.getV 15)) =
    some (.holds 0xE2, .holds 0) := by decide
theorem test_shl : after (step (at_ 0x200 0x820E (regs fresh [(2, 0x81)]))) (fun t => (t.getV 2, t.getV 15)) =
    some (.holds 2, .holds 1) := by decide
theorem test_shl_vf : after (step (at_ 0x200 0x8F0E (regs fresh [(15, 0x40)]))) (·.getV 15) = some (.holds 0) := by decide
theorem test_ldINnn : after (step (at_ 0x200 0xAFFF fresh)) (·.i) = some (.holds 0xFFF) := by decide
theorem test_rnd : after (step (at_ 0x200 0xC30F (fresh.setEnv { Env.empty with randomBytes := [0xB7, 1] })))
    (fun t => (t.getV 3, t.env.randomBytes)) = some (.holds 7, [1]) := by decide
/-- Glyph A at (62, 30), wrapped on both sides (95_test_vectors.md L3-4): rows 31, 0 and 2 in columns 62, 63, 0, 1, 2. -/
theorem test_drw : after (step (at_ 0x20A 0xD125 ((regs fresh [(1, 62), (2, 30)]).setI 0x032)))
    (fun t => ([31, 0, 2].map (fun y => [62, 63, 0, 1, 2].map (fun x => t.fb.pixel x y)), t.getV 15, t.dirty)) =
    some ([[true, false, false, true, false], [true, true, true, true, false], [true, false, false, true, false]],
      .holds 0, true) := by decide
theorem test_drw_collision : after (step (at_ 0x200 0xD015
      (((regs fresh [(0, 0), (1, 0)]).setI 0).setFb (Frame.allOff.setPixel 0 0 true))))
    (fun t => (t.fb.pixel 0 0, t.fb.pixel 1 0, t.getV 15)) = some (false, true, .holds 1) := by decide
theorem test_skp : after (step (at_ 0x210 0xE59E ((regs fresh [(5, 10)]).setEnv { Env.empty with keyAnswers := [true] })))
    (·.pc) = some 0x214 := by decide
theorem test_skp_noKey : after (step (at_ 0x200 0xE59E (regs fresh [(5, 16)]))) runPc =
    faulted .keyIndexOutOfRange 0x200 0xE59E (.keyValue 16) := by decide
theorem test_sknp : after (step (at_ 0x210 0xE5A1 ((regs fresh [(5, 10)]).setEnv { Env.empty with keyAnswers := [true] })))
    (·.pc) = some 0x212 := by decide
theorem test_ldVxDt : after (step (at_ 0x200 0xF107 (fresh.setDt 0x3C))) (fun t => (t.getV 1, t.dt)) =
    some (.holds 0x3C, 0x3C) := by decide
theorem test_ldVxK : after (step (at_ 0x20A 0xF20A fresh)) runPc = some (.waitKey 2, 0x20A) := by decide
theorem test_ldVxK_key : after (step (((fresh.setPc 0x20A).setRun (.waitKey 2)).setEnv
      { Env.empty with pollAnswers := [some 7] })) (fun t => (t.getV 2, runPc t)) = some (.holds 7, .running, 0x20C) := by
  decide
theorem test_ldDtVx : after (step (at_ 0x200 0xF015 (regs fresh [(0, 5)]))) (fun t => (t.dt, t.st)) = some (5, 0) := by decide
theorem test_ldStVx : after (step (at_ 0x200 0xF018 (regs fresh [(0, 2)]))) (fun t => (t.dt, t.st)) = some (0, 2) := by decide
theorem test_addIVx : after (step (at_ 0x200 0xF11E ((regs fresh [(1, 1), (15, 7)]).setI 0xFFF)))
    (fun t => (t.i, t.getV 15)) = some (.holds 0x1000, .holds 7) := by decide
theorem test_addIVx_wraps : after (step (at_ 0x200 0xF11E ((regs fresh [(1, 0xFF)]).setI 0xFFFF))) (·.i) =
    some (.holds 0x00FE) := by decide
theorem test_ldFVx : after (step (at_ 0x200 0xF029 (regs fresh [(0, 0x1F)]))) (·.i) = some (.holds 0x04B) := by decide
theorem test_ldBVx : after (step (at_ 0x200 0xF033 ((regs fresh [(0, 254)]).setI 0x300)))
    (fun t => [0x2FF, 0x300, 0x301, 0x302, 0x303].map (Memory.byteAt t.mem)) = some [0, 2, 5, 4, 0] := by decide
theorem test_ldBVx_fault : after (step (at_ 0x200 0xF033 ((regs fresh [(0, 255)]).setI 0xEAE)))
    (fun t => (t.run, Memory.byteAt t.mem 0xEAE)) =
    some (.faulted { code := .memoryAccessFault, pc := 0x200, opcode := some 0xF033, info := .access 0xEB0 .write }, 0) := by
  decide
theorem test_ldMemVx : after (step (at_ 0x200 0xF355 ((regs fresh [(0, 1), (1, 2), (2, 3), (3, 4), (4, 5)]).setI 0x400)))
    (fun t => ([0x400, 0x401, 0x402, 0x403, 0x404].map (Memory.byteAt t.mem), t.i)) =
    some ([1, 2, 3, 4, 0], .holds 0x400) := by decide
theorem test_ldMemVx_uninitialised : after (step (at_ 0x200 0xF355 ((regs fresh [(0, 1), (1, 2), (2, 3)]).setI 0x400))) runPc =
    faulted .uninitialisedRead 0x200 0xF355 (.register (.v 3)) := by decide
theorem test_ldVxMem : after (step (at_ 0x200 0xF265 ((regs fresh [(3, 9)]).setI 0)))
    (fun t => ([0, 1, 2, 3].map t.getV, t.i)) =
    some ([.holds 0xF0, .holds 0x90, .holds 0x90, .holds 9], .holds 0) := by decide
theorem test_ldVxMem_fault : after (step (at_ 0x200 0xF065 (fresh.setI 0x1000))) runPc =
    faulted .memoryAccessFault 0x200 0xF065 (.access 0x1000 .read) := by decide

/-! ### Steps of the environment -/

theorem test_fetch_fault : after (step (fresh.setPc 0xEAF)) (·.run) =
    some (.faulted { code := .pcOutOfRange, pc := 0xEAF, opcode := none, info := .pcValue 0xEAF }) := by decide
theorem test_tick : after (step (next_ [.tick] ((fresh.setDt 1).setRun (.waitKey 2)))) (fun t => (t.dt, t.st)) =
    some (0, 0) := by decide
theorem test_present : after (step (next_ [.present] (fresh.setDirty true))) (fun t => (t.dirty, t.env.received.length)) =
    some (false, 1) := by decide
theorem test_shutdown : after (step (next_ [.shutdown] (fresh.setRun (.waitKey 2)))) (·.run) = some .stopped := by decide
theorem test_load : after (step (next_ [.load [0x12, 0x00] true] faultedState))
    (fun t => (runPc t, Memory.byteAt t.mem 0x200, t.getV 0)) = some ((.running, 0x200), 0x12, .uninitialised) := by decide
theorem test_cycle_faulted : step faultedState =
    .fault (.faulted { code := .decodeError, pc := 0x200, opcode := some 0, info := .none }) := by rfl

/-! ### Witnesses: concrete states and operands that meet the hypotheses of each statement, clause by clause, at the bounds
of their ranges -/

/-- Every register of `s` written. -/
def allRegs (s : State) : State :=
  regs s [(0, 0), (1, 1), (2, 2), (3, 3), (4, 4), (5, 5), (6, 6), (7, 7), (8, 8), (9, 9), (10, 10), (11, 11), (12, 12),
    (13, 13), (14, 14), (15, 15)]

/-- An unloaded machine at power-on, a Load of the ROM coming. -/
def unloadedMachine (rom : List Byte) : State := next_ [.load rom true] (State.reset.setRun .unloaded)

/-- A machine waiting at its own `F20A`. -/
def waiting : State := { fresh with mem := [(0x20A, 0xF2), (0x20B, 0x0A)], pc := 0x20A, run := .waitKey 2 }

theorem witness_EncodedInstructionsDecodeBack : (Instr.sys 0xFFF).wellFormed = true ∧ (Instr.drw 15 15 1).wellFormed = true ∧
    (Instr.ldVxMem 15).wellFormed = true := by decide

theorem witness_DecodedWordsEncodeBack : decodeWord 0x0000 = .ok (.sys 0) ∧ decodeWord 0xFF65 = .ok (.ldVxMem 15) := by decide

theorem witness_StepRunsDecodedInstruction : ∃ s, runsNext s ∧ fetchAllowed s.pc ∧
    decodeWord (wordAt s.mem s.pc) = .ok (.jp 0x234) :=
  ⟨at_ 0xEAE 0x1234 fresh, ⟨by decide, by decide⟩, by decide, by decide⟩

theorem witness_FetchReadsTwoBytesBigEndian :
    (0x200 ≤ (fresh.setPc 0x200).pc.toNat ∧ (fresh.setPc 0x200).pc.toNat ≤ 0xEAE) ∧
    (0x200 ≤ (fresh.setPc 0xEAE).pc.toNat ∧ (fresh.setPc 0xEAE).pc.toNat ≤ 0xEAE) ∧
    ¬(0x200 ≤ (fresh.setPc 0x1FF).pc.toNat ∧ (fresh.setPc 0x1FF).pc.toNat ≤ 0xEAE) ∧
    ¬(0x200 ≤ (fresh.setPc 0xEAF).pc.toNat ∧ (fresh.setPc 0xEAF).pc.toNat ≤ 0xEAE) :=
  ⟨⟨by decide, by decide⟩, ⟨by decide, by decide⟩, by decide, by decide⟩

theorem witness_CycleTakesFetchAndDecodeFaults :
    (∃ s, runsNext s ∧ ¬fetchAllowed s.pc) ∧
    ∃ s, runsNext s ∧ fetchAllowed s.pc ∧ decodeWord (wordAt s.mem s.pc) = .error .selector5 :=
  ⟨⟨fresh.setPc 0xEAF, ⟨by decide, by decide⟩, by decide⟩,
    at_ 0x200 0x5121 fresh, ⟨by decide, by decide⟩, by decide, by decide⟩

/-- A state ready to draw at the pixel (63, 31), the last five bytes of memory as the sprite. -/
def drawing : State := ((regs fresh [(0, 63), (1, 31)]).setI 0xFFB).setMem [(4095, 1)]

theorem witness_DrawSpriteTogglesAndCollides :
    5#4 ≠ 0#4 ∧ drawing.getV 0 = .holds 63 ∧ drawing.getV 1 = .holds 31 ∧ drawing.i = .holds 0xFFB ∧
    ∀ r < (5#4).toNat, dataAccessible ((0xFFB : Word).toNat + r) := by decide

theorem witness_DrawSpriteTogglesAndCollides_covered :
    spriteCovers drawing.mem 0xFFB 5 63 31 6 3 ∧ ¬spriteCovers drawing.mem 0xFFB 5 63 31 5 3 ∧
    (drawing.setFb (Frame.allOff.setPixel 6 3 true)).fb.pixel 6 3 = true := by
  unfold spriteCovers; decide

theorem witness_DrawSpriteTogglesAndCollides_blank : ¬∃ px py, spriteCovers fresh.mem 0x300 1 0 0 px py := by
  rintro ⟨px, py, r, hr, c, hc, hb, -⟩
  have : ∀ r < 1, ∀ c < 8, (Memory.byteAt fresh.mem (0x300 + r)).getLsbD (7 - c) = false := by decide
  rw [this r hr c hc] at hb; cases hb

theorem witness_DrawSpriteFaults :
    fresh.getV 0 = .uninitialised ∧ (regs fresh [(0, 0)]).getV 0 = .holds 0 ∧ (regs fresh [(0, 0)]).getV 1 = .uninitialised ∧
    (regs fresh [(0, 0), (1, 0)]).getV 1 = .holds 0 ∧ (regs fresh [(0, 0), (1, 0)]).i = .uninitialised ∧
    ((regs fresh [(0, 0), (1, 0)]).setI 0x45).i = .holds 0x45 ∧ 11 < (15#4).toNat ∧
    (∀ k < 11, dataAccessible ((0x45 : Word).toNat + k)) ∧ ¬dataAccessible ((0x45 : Word).toNat + 11) ∧
    (∀ k < 2, dataAccessible ((0xFFE : Word).toNat + k)) ∧ ¬dataAccessible ((0xFFE : Word).toNat + 2) := by decide

theorem witness_ReturnPopsStack : (fresh.setStack (List.replicate 47 0x202 ++ [0x206])).stack =
    List.replicate 47 0x202 ++ [0x206] ∧ fresh.stack = [] := ⟨rfl, rfl⟩

theorem witness_NativeCallRaisesDecodeError : ∀ nnn ∈ [(0x000 : Addr12), 0x0E1, 0x0EF, 0xFFF], nnn ≠ 0x0E0#12 ∧ nnn ≠ 0x0EE#12 := by
  decide

theorem witness_CallPushesReturnAddress : (fresh.setStack (List.replicate 47 0x202)).stack.length < 48 ∧
    (fresh.setStack (List.replicate 48 0x202)).stack.length = 48 := by decide

theorem witness_SkipsComparingByte : (regs fresh [(15, 0xFF)]).getV 15 = .holds 0xFF ∧ fresh.getV 15 = .uninitialised := by
  decide

theorem witness_SkipsComparingRegister : (15#4 : Nibble) ≠ 0#4 ∧
    (regs fresh [(15, 0xFF), (0, 0)]).getV 15 = .holds 0xFF ∧ (regs fresh [(15, 0xFF), (0, 0)]).getV 0 = .holds 0 ∧
    fresh.getV 15 = .uninitialised ∧ (regs fresh [(15, 1)]).getV 0 = .uninitialised ∧
    (regs fresh [(15, 1)]).getV 15 = .holds 1 := by decide

theorem witness_JumpPlusV0 : (regs fresh [(0, 0xFF)]).getV 0#4 = .holds 0xFF ∧ fresh.getV 0#4 = .uninitialised := by decide

theorem witness_CallThenReturnComesBack : (fresh.setStack (List.replicate 47 0x202)).stack.length < 48 ∧
    ∃ t, exec (.call 0xFFF) (fresh.setStack (List.replicate 47 0x202)) = .next t := ⟨by decide, _, rfl⟩

/-- Two operands, the destination VF among them; an uninitialised first, then an uninitialised second operand. -/
theorem witness_twoOperands :
    (regs fresh [(15, 0xFF), (1, 1)]).getV 15 = .holds 0xFF ∧ (regs fresh [(15, 0xFF), (1, 1)]).getV 1 = .holds 1 ∧
    (regs fresh [(1, 1)]).getV 15 = .uninitialised ∧ (regs fresh [(15, 0)]).getV 15 = .holds 0 ∧
    (regs fresh [(15, 0)]).getV 1 = .uninitialised ∧ (1 : RegIx) ≠ 15#4 := by decide

theorem witness_AddImmediateWithoutFlag : (regs fresh [(15, 0xFF)]).getV 15 = .holds 0xFF ∧ fresh.getV 0 = .uninitialised := by
  decide
theorem witness_CopyRegister : (regs fresh [(5, 0xFF)]).getV 5 = .holds 0xFF ∧ fresh.getV 5 = .uninitialised := by decide
theorem witness_LogicalOperationsWithoutFlag :
    (Instr.xorVxVy 15 1, opXY 0x8003 15 1, fun a b : Byte => a ^^^ b) ∈
      [(Instr.orVxVy 15 1, opXY 0x8001 15 1, fun a b : Byte => a ||| b),
        (Instr.andVxVy 15 1, opXY 0x8002 15 1, fun a b => a &&& b),
        (Instr.xorVxVy 15 1, opXY 0x8003 15 1, fun a b => a ^^^ b)] := by simp
theorem witness_AddWithCarry : (regs fresh [(15, 0xFF), (1, 1)]).getV 15 = .holds 0xFF ∧
    (regs fresh [(15, 0xFF), (1, 1)]).getV 1 = .holds 1 ∧ (0xFF : Byte).toNat + (1 : Byte).toNat > 255 ∧
    ¬(0xFF : Byte).toNat + (0 : Byte).toNat > 255 := by decide
theorem witness_SubtractWithoutBorrowFlag : (regs fresh [(1, 7), (2, 7)]).getV 1 = .holds 7 ∧
    (regs fresh [(1, 7), (2, 7)]).getV 2 = .holds 7 ∧ (regs fresh [(1, 0), (2, 1)]).getV 1 = .holds 0 ∧
    (regs fresh [(1, 0), (2, 1)]).getV 2 = .holds 1 := by decide
theorem witness_ReversedSubtract : (regs fresh [(1, 1), (2, 0)]).getV 1 = .holds 1 ∧
    (regs fresh [(1, 1), (2, 0)]).getV 2 = .holds 0 := by decide
theorem witness_ShiftsInPlace : (regs fresh [(15, 0xFF)]).getV 15 = .holds 0xFF ∧ (regs fresh [(2, 0)]).getV 2 = .holds 0 ∧
    fresh.getV 2 = .uninitialised := by decide
theorem witness_RandomByteUnderMask : (fresh.setEnv { Env.empty with randomBytes := [0xFF] }).env.randomBytes = 0xFF :: [] ∧
    fresh.env.randomBytes = [] := ⟨rfl, rfl⟩

theorem witness_AddToIndex : ((regs fresh [(15, 0xFF)]).setI 0xFFFF).i = .holds 0xFFFF ∧
    ((regs fresh [(15, 0xFF)]).setI 0xFFFF).getV 15 = .holds 0xFF ∧ fresh.i = .uninitialised ∧
    (fresh.setI 0).i = .holds 0 ∧ (fresh.setI 0).getV 15 = .uninitialised := by decide
theorem witness_PointAtGlyph : (regs fresh [(0, 0x1F)]).getV 0 = .holds 0x1F ∧ fresh.getV 0 = .uninitialised := by decide

theorem witness_StoreDecimalDigits : fresh.mem.wf ∧ ((regs fresh [(0, 255)]).setI 0xEAD).getV 0 = .holds 255 ∧
    ((regs fresh [(0, 255)]).setI 0xEAD).i = .holds 0xEAD ∧ (∀ k < 3, dataAccessible ((0xEAD : Word).toNat + k)) ∧
    (∀ k < 3, dataAccessible ((0xFFD : Word).toNat + k)) ∧
    fresh.getV 0 = .uninitialised ∧ (regs fresh [(0, 0)]).getV 0 = .holds 0 ∧ (regs fresh [(0, 0)]).i = .uninitialised ∧
    (∀ j < 2, dataAccessible ((0xEAE : Word).toNat + j)) ∧ ¬dataAccessible ((0xEAE : Word).toNat + 2) ∧
    ¬dataAccessible ((0xFFFF : Word).toNat + 0) := by decide

theorem witness_StoreRegisterBlock : fresh.mem.wf ∧ ((allRegs fresh).setI 0xFF0).i = .holds 0xFF0 ∧
    (∀ r : RegIx, r.toNat ≤ (15 : RegIx).toNat → ((allRegs fresh).setI 0xFF0).getV r ≠ .uninitialised) ∧
    (∀ k ≤ (15 : RegIx).toNat, dataAccessible ((0xFF0 : Word).toNat + k)) := by decide
theorem witness_StoreRegisterBlock_faults : fresh.i = .uninitialised ∧
    (regs fresh [(0, 1), (1, 2)]).getV 2 = .uninitialised ∧
    (∀ q : RegIx, q.toNat < (2 : RegIx).toNat → (regs fresh [(0, 1), (1, 2)]).getV q ≠ .uninitialised) ∧
    (∀ j < 15, dataAccessible ((0xFF1 : Word).toNat + j)) ∧ ¬dataAccessible ((0xFF1 : Word).toNat + 15) := by decide
theorem witness_LoadRegisterBlock : (fresh.setI 0x40).i = .holds 0x40 ∧
    (∀ k ≤ (15 : RegIx).toNat, dataAccessible ((0x40 : Word).toNat + k)) ∧ fresh.i = .uninitialised ∧
    ¬dataAccessible ((0x50 : Word).toNat + 0) ∧
    (∀ j < 15, dataAccessible ((0x41 : Word).toNat + j)) ∧ ¬dataAccessible ((0x41 : Word).toNat + 15) := by decide

theorem witness_StoredBlockLoadsBack : ∃ s t v, s.mem.wf ∧ exec (.ldMemVx 15) s = .next t ∧ t.run = s.run ∧ faultFree s ∧
    exec (.ldVxMem 15) t = .next v :=
  ⟨(allRegs fresh).setI 0xFF0, _, _, by decide, rfl, by decide, by rintro r ⟨⟩, rfl⟩

theorem witness_StoredCodeIsFetched : ∃ s t, s.mem.wf ∧ faultFree s ∧ exec (.ldMemVx 15) s = .next t ∧ t.run = s.run ∧
    s.i = .holds 0xEA0 ∧ (14 : RegIx).toNat + 1 ≤ (15 : RegIx).toNat ∧ s.getV 14 = .holds 14 ∧ s.getV (14 + 1) = .holds 15 ∧
    (t.setPc 0xEAE).mem = t.mem ∧ (t.setPc 0xEAE).pc.toNat = (0xEA0 : Word).toNat + (14 : RegIx).toNat ∧
    fetchAllowed (t.setPc 0xEAE).pc :=
  ⟨(allRegs fresh).setI 0xEA0, _, by decide, by rintro r ⟨⟩, rfl, by decide, by decide, by decide, by decide, by decide, rfl,
    by decide, by decide⟩

theorem witness_KeySkips : (regs fresh [(5, 15)]).getV 5 = .holds 15 ∧ (15 : Byte).toNat ≤ 15 ∧
    ((regs fresh [(5, 15)]).setEnv { Env.empty with keyAnswers := [true] }).env.keyAnswers = true :: [] ∧
    (15 : Byte).toNat = (15 : Key).toNat ∧ (regs fresh [(5, 15)]).env.keyAnswers = [] ∧ fresh.getV 5 = .uninitialised ∧
    (regs fresh [(5, 16)]).getV 5 = .holds 16 ∧ 15 < (16 : Byte).toNat := by decide
theorem witness_WriteTimers : (regs fresh [(15, 0xFF)]).getV 15 = .holds 0xFF ∧ fresh.getV 15 = .uninitialised := by decide

theorem witness_KeyWaitPolls : nextKind waiting = .cycle ∧ waiting.run = .waitKey 2 ∧
    (waiting.setEnv { Env.empty with pollAnswers := [none] }).env.pollAnswers = none :: [] ∧
    (waiting.setEnv { Env.empty with pollAnswers := [some 15] }).env.pollAnswers = some 15 :: [] ∧
    waiting.env.pollAnswers = [] := by decide

theorem witness_TickCountsDown : nextKind (next_ [.tick] fresh) = .tick ∧ (next_ [.tick] fresh).run = .running ∧
    (next_ [.tick] waiting).run = .waitKey 2 ∧ (next_ [.tick] faultedState).run ≠ .running ∧
    ¬∃ x, (next_ [.tick] faultedState).run = .waitKey x := ⟨by decide, by decide, by decide, by decide, by rintro ⟨x, ⟨⟩⟩⟩
theorem witness_PresentHandsOverFrame : nextKind (next_ [.present] faultedState) = .present := by decide
theorem witness_ShutdownStopsTheRun : nextKind (next_ [.shutdown] fresh) = .shutdown ∧ (next_ [.shutdown] fresh).run = .running ∧
    (next_ [.shutdown] waiting).run = .waitKey 2 ∧ (next_ [.shutdown] faultedState).run ≠ .running ∧
    ¬∃ x, (next_ [.shutdown] faultedState).run = .waitKey x :=
  ⟨by decide, by decide, by decide, by decide, by rintro ⟨x, ⟨⟩⟩⟩
theorem witness_LoadResetsTheCore :
    nextKind (next_ [.load (List.replicate 3248 0) true] faultedState) = .load (List.replicate 3248 0) true ∧
    (List.replicate 3248 (0 : Byte)).length ≤ 3248 ∧ State.reset.params.regsZeroAtReset = true ∧
    fresh.params.regsZeroAtReset = false ∧ 3248 < (List.replicate 3249 (0 : Byte)).length ∧
    nextKind (next_ [.load [] false] fresh) = .load [] false :=
  ⟨rfl, List.length_replicate.le, rfl, rfl, List.length_replicate.symm ▸ Nat.lt_succ_self 3248, rfl⟩
theorem witness_NoCycleUnlessRunningOrWaiting : nextKind (fresh.setRun .unloaded) = .cycle ∧
    (fresh.setRun .unloaded).run = .unloaded ∧ nextKind faultedState = .cycle ∧
    faultedState.run = .faulted { code := .decodeError, pc := 0x200, opcode := some 0, info := .none } ∧
    nextKind (fresh.setRun .stopped) = .cycle ∧ (fresh.setRun .stopped).run = .stopped ∧
    nextKind (next_ [.tick] (fresh.setRun .stopped)) = .tick ∧
    nextKind (next_ [.shutdown] (fresh.setRun .unloaded)) = .shutdown := by decide

theorem witness_FaultsArePrecise : ∃ s t r, faultFree s ∧ step s = .next t ∧ t.run = .faulted r :=
  ⟨at_ 0xEAE 0x5121 fresh, _, _, by rintro r ⟨⟩, rfl, rfl⟩
theorem witness_FaultedIsTerminal : ∃ t r, (next_ [.tick] faultedState).run = .faulted r ∧ step (next_ [.tick] faultedState) = .next t :=
  ⟨_, _, rfl, rfl⟩
theorem witness_OnlyDisplayInstructionsChangePixels : ∃ s t, step s = .next t ∧ t.fb ≠ s.fb :=
  ⟨at_ 0x200 0x00E0 (fresh.setFb (Frame.allOff.setPixel 63 31 true)), _, rfl, fun h =>
    absurd (congrArg (fun f => f.pixel 63 31) h) (by decide)⟩
theorem witness_DirtyIsClearedByPresentOnly :
    (∃ t, step (next_ [.present] (fresh.setDirty true)) = .next t ∧ (fresh.setDirty true).dirty = true ∧ t.dirty = false) ∧
    ∃ t, step (at_ 0x200 0x00E0 fresh) = .next t ∧ fresh.dirty = false ∧ t.dirty = true :=
  ⟨⟨_, rfl, rfl, rfl⟩, _, rfl, rfl, rfl⟩
theorem witness_TimersNeverIncreaseBetweenWrites :
    (∃ t, step (at_ 0x200 0xF015 (regs fresh [(0, 1)])) = .next t ∧ (at_ 0x200 0xF015 (regs fresh [(0, 1)])).dt.toNat < t.dt.toNat) ∧
    ∃ t, step (at_ 0x200 0xF018 (regs fresh [(0, 255)])) = .next t ∧
      (at_ 0x200 0xF018 (regs fresh [(0, 255)])).st.toNat < t.st.toNat :=
  ⟨⟨_, rfl, by decide⟩, _, rfl, by decide⟩
theorem witness_SoundTimerAndDirtyAreUnread : ∃ t, exec (.ldStVx 0) (regs fresh [(0, 2)]) = .next t := ⟨_, rfl⟩

theorem witness_StepKeepsMemoryCanonical : ∃ s t, memoryInv s ∧ step s = .next t :=
  ⟨at_ 0xEAE 0xF033 ((regs fresh [(0, 254)]).setI 0xFFD), _, ⟨by decide, by decide⟩, rfl⟩
theorem witness_StepKeepsInvariant : ∃ s t, s.Inv ∧ step s = .next t :=
  ⟨next_ [.tick] waiting, _, fun _ => ⟨⟨by decide, by decide⟩, ⟨Nat.zero_le _, fun a ha => by cases ha⟩, by unfold pcInv; decide,
    fun x hx => by cases hx; decide, fun r hr => by cases hr⟩, rfl⟩
theorem witness_ResetAndPowerOnMeetInvariant : atPowerOn (unloadedMachine []) := ⟨rfl, rfl, rfl⟩
theorem witness_NoUninitialisedReadWithZeroedRegisters : ∃ t r, allInitialised State.reset ∧ step State.reset = .next t ∧
    faultFree State.reset ∧ t.run = .faulted r :=
  ⟨_, _, ⟨rfl, fun _ => ⟨by decide, by decide⟩⟩, rfl, by rintro r ⟨⟩, rfl⟩
theorem witness_DataAccessesAreChecked : Memory.wf [] ∧
    (∀ a ∈ [0, 79, 512, 3759, 3856, 4095], a < 80 ∨ (512 ≤ a ∧ a < 3760) ∨ (3856 ≤ a ∧ a < 4096)) ∧
    ∀ a ∈ [80, 511, 3760, 3855, 4096], ¬(a < 80 ∨ (512 ≤ a ∧ a < 3760) ∨ (3856 ≤ a ∧ a < 4096)) := by decide
theorem witness_PowerOnContentsAreNotObserved : ∃ s s' t t', atPowerOn s ∧ atPowerOn s' ∧ s ≠ s' ∧ s.params = s'.params ∧
    s.env = s'.env ∧ nextKind s = .load [0x12, 0x00] true ∧ [(0x12 : Byte), 0x00].length ≤ 3248 ∧ step s = .next t ∧
    step s' = .next t' :=
  ⟨unloadedMachine [0x12, 0x00], (unloadedMachine [0x12, 0x00]).setDt 7, _, _, ⟨rfl, rfl, rfl⟩, ⟨rfl, rfl, rfl⟩,
    fun h => absurd (congrArg State.dt h) (by decide), rfl, rfl, rfl, by decide, rfl, rfl⟩
theorem witness_DoubleDrawRestoresPixels : ∃ s t v, 5#4 ≠ 0#4 ∧ s.getV 0 = .holds 63 ∧ s.getV 1 = .holds 31 ∧
    s.i = .holds 0xFFB ∧ (∀ r < (5#4).toNat, dataAccessible ((0xFFB : Word).toNat + r)) ∧
    exec (.drw 0 1 5) s = .next t ∧ t.getV 0 = .holds 63 ∧ t.getV 1 = .holds 31 ∧ exec (.drw 0 1 5) t = .next v :=
  ⟨drawing, _, _, by decide, by decide, by decide, by decide, by decide, rfl, by decide, by decide, rfl⟩
theorem witness_ResetIsLoadOfTheEmptyRom : ∃ s, atPowerOn s ∧ s.params = State.reset.params ∧ s.env = State.reset.env :=
  ⟨State.reset.setRun .unloaded, ⟨rfl, rfl, rfl⟩, rfl, rfl⟩

end Sys2Proof.Tests
end

section
/-! SUPPORT. The checked byte accesses (20_memory.md R49): what each answers at an address outside the accessible ranges, and
the obligation on them. -/

namespace Sys2Proof.Machine

/-- Outside the accessible ranges a checked read answers the fault of that read. -/
theorem memRead_eq_error {m : Memory} {a : Nat} (h : ¬dataAccessible a) :
    memRead m a = .error (accessTrap a .read) := if_neg h

/-- Outside the accessible ranges a checked write answers the fault of that write. -/
theorem memWrite_eq_error {m : Memory} {a : Nat} {v : Byte} (h : ¬dataAccessible a) :
    memWrite m a v = .error (accessTrap a .write) := if_neg h

/-- Settles O57: a permitted access goes by the laws of a single read and write, a forbidden one answers its fault. -/
theorem dataAccessesAreChecked : Obligations.DataAccessesAreChecked := by
  intro m a v hm
  constructor
  case left =>
    intro ha
    have hw : memWrite m a v = .ok (Memory.put m a v) := memWrite_eq_ok_iff.2 ⟨ha, rfl⟩
    have hread (b : Nat) := byteAt_of_memWrite hm hw b
    refine ⟨memRead_eq_ok_iff.2 ⟨ha, rfl⟩, _, hw, wf_of_memWrite hm hw, ?_, fun b hb => ?_⟩
    · exact memRead_eq_ok_iff.2 ⟨ha, (hread a).trans (if_pos rfl)⟩
    · exact (hread b).trans (if_neg hb)
  case right =>
    intro ha
    exact ⟨memRead_eq_error ha, memWrite_eq_error ha⟩

end Sys2Proof.Machine
end

section
/-! SUPPORT. A word that decodes is the encoding of what it decodes to (30_encoding.md R65), family by family: so the word a
fault record holds is the fetched one. -/

namespace Sys2Proof

/-! ### A word whose selectors are known is built from the rest of its fields -/

variable {op : Word} {f : Nibble}

theorem wordNNN_of_fieldF (hf : fieldF op = f) : wordNNN f (fieldNNN op) = op := by
  rw [← hf, wordNNN_fields]

theorem wordXNN_of_fieldF (hf : fieldF op = f) : wordXNN f (fieldX op) (fieldNN op) = op := by
  rw [← hf, wordXNN_fields]

theorem wordXNN_of_fieldNN {nn : Byte} (hf : fieldF op = f) (hnn : fieldNN op = nn) : wordXNN f (fieldX op) nn = op := by
  rw [← hnn, wordXNN_of_fieldF hf]

theorem wordXYN_of_fieldN {n : Nibble} (hf : fieldF op = f) (hn : fieldN op = n) :
    wordXYN f (fieldX op) (fieldY op) n = op := by
  rw [← hf, ← hn, wordXYN_fields]

/-! ### The families with selectors of their own -/

theorem encode_decode0 (hf : fieldF op = 0x0) : encode (decode0 op) = op := by
  unfold decode0
  split
  case isTrue h => exact h.symm
  case isFalse =>
    split
    case isTrue h => exact h.symm
    case isFalse => exact wordNNN_of_fieldF hf

theorem encode_of_decode8 {i : Instr} (hf : fieldF op = 0x8) (h : decode8 op = .ok i) : encode i = op := by
  unfold decode8 at h
  split at h
  case h_10 => cases h
  all_goals
    rename_i hn
    cases h
    exact wordXYN_of_fieldN hf hn

theorem encode_of_decodeE {i : Instr} (hf : fieldF op = 0xE) (h : decodeE op = .ok i) : encode i = op := by
  unfold decodeE at h
  split at h
  case h_3 => cases h
  all_goals
    rename_i hnn
    cases h
    exact wordXNN_of_fieldNN hf hnn

theorem encode_of_decodeF {i : Instr} (hf : fieldF op = 0xF) (h : decodeF op = .ok i) : encode i = op := by
  unfold decodeF at h
  split at h
  case h_10 => cases h
  all_goals
    rename_i hnn
    cases h
    exact wordXNN_of_fieldNN hf hnn

/-! ### All families -/

/-- The encoder takes every decoded instruction back to its word (30_encoding.md R65). -/
theorem encode_of_decodeWord {i : Instr} (h : decodeWord op = .ok i) : encode i = op := by
  unfold decodeWord at h
  split at h <;> rename_i hf
  case h_1 => cases h; exact encode_decode0 hf
  case h_2 | h_3 | h_11 | h_12 => cases h; exact wordNNN_of_fieldF hf
  case h_4 | h_5 | h_7 | h_8 | h_13 => cases h; exact wordXNN_of_fieldF hf
  case h_6 | h_10 =>
    split at h
    case isTrue hn => cases h; exact wordXYN_of_fieldN hf hn
    case isFalse => cases h
  case h_9 => exact encode_of_decode8 hf h
  case h_14 =>
    split at h
    case isTrue => cases h
    case isFalse => cases h; exact wordXYN_of_fieldN hf rfl
  case h_15 => exact encode_of_decodeE hf h
  case h_16 =>
    -- The other fifteen families are excluded by the hypotheses that the earlier cases leave.
    have hF : fieldF op = 0xF := by simp only [imp_false] at *; bv_omega
    exact encode_of_decodeF hF h

end Sys2Proof
end

section
/-! SUPPORT. The execution cycle (40_execution_cycle.md): what fetch answers, which steps can enter `Faulted` and with what
record, and the obligations on both. -/

namespace Sys2Proof.Machine

/-! ### Fetch -/

/-- The word fetched has the byte at the lower address as its most significant half (40_execution_cycle.md R75). -/
theorem toNat_wordAt (m : Memory) (a : Word) :
    (wordAt m a).toNat = (Memory.byteAt m a.toNat).toNat * 256 + (Memory.byteAt m (a.toNat + 1)).toNat :=
  toNat_wordOfBytes _ _

/-- A fetch is allowed at the addresses 0x200..0xEAE, odd ones too (40_execution_cycle.md R76). -/
theorem fetchAllowed_iff {a : Word} : fetchAllowed a ↔ 0x200 ≤ a.toNat ∧ a.toNat ≤ 0xEAE := by
  unfold fetchAllowed; omega

/-- Settles O6: inside the program region by the fetch's word as a number, outside it by the fetch's one fault. -/
theorem fetchReadsTwoBytesBigEndian : Obligations.FetchReadsTwoBytesBigEndian := by
  intro s
  rw [← fetchAllowed_iff]
  constructor
  case left => exact fun hf => ⟨_, fetchWord_eq_ok_iff.2 ⟨hf, rfl⟩, toNat_wordAt s.mem s.pc⟩
  case right => exact fetchWord_of_not_allowed

/-! ### The environment's choice used up -/

@[simp] theorem State.dequeued_run (s : State) : s.dequeued.run = s.run := rfl
@[simp] theorem State.dequeued_pc (s : State) : s.dequeued.pc = s.pc := rfl
@[simp] theorem State.dequeued_mem (s : State) : s.dequeued.mem = s.mem := rfl

/-! ### The steps that raise no fault -/

/-- An operation that leaves the run state alone enters no `Faulted`. -/
theorem faultFree_of_run_eq {s t : State} (hs : faultFree s) (h : t.run = s.run) : faultFree t :=
  fun r => h ▸ hs r

/-- A poll of the key wait raises no fault (40_execution_cycle.md R81). -/
theorem faultFree_waitCycle {s : State} (hs : faultFree s) (x : RegIx) : faultFree (waitCycle x s) := by
  obtain ⟨e, he⟩ := askPollKey_snd s
  unfold waitCycle
  simp only [he]
  split
  · exact faultFree_of_run_eq hs rfl
  · intro r; simp

/-- A Tick raises no fault. -/
theorem faultFree_tick {s : State} (hs : faultFree s) : faultFree (tick s) :=
  faultFree_of_run_eq hs (by unfold tick; split <;> rfl)

/-- A Present raises no fault. -/
theorem faultFree_present {s : State} (hs : faultFree s) : faultFree (present s) :=
  faultFree_of_run_eq hs rfl

/-- A Shutdown raises no fault. -/
theorem faultFree_shutdown {s : State} (hs : faultFree s) : faultFree (shutdown s) := by
  unfold shutdown
  split
  case h_1 | h_2 => intro r; simp
  all_goals exact hs

/-- A Load raises no fault: its LoadError is reported and changes no run state (60_exceptions.md R132). -/
theorem faultFree_load {s : State} (hs : faultFree s) (rom : List Byte) (readable : Bool) :
    faultFree (load rom readable s) := by
  unfold load
  split
  case isTrue => exact faultFree_of_run_eq hs rfl
  case isFalse => intro r; simp

/-- A completed instruction raises no fault. -/
theorem Completes.faultFree {s t : State} {i : Instr} (hs : faultFree s) (h : Completes s t i) : faultFree t := by
  rcases h.run with hrun | ⟨x, -, rfl⟩
  · exact faultFree_of_run_eq hs hrun
  · intro r; simp

/-! ### Precise faults -/

/-- `t` is `s` with a fault taken precisely: the run state is the only change, and its record `r` holds the PC of `s` and the
word `op` (40_execution_cycle.md R82). -/
def FaultsPrecisely (s t : State) (op : Option Word) (r : FaultRecord) : Prop :=
  t = { s with run := .faulted r } ∧ r.pc = s.pc ∧ r.opcode = op

/-- Taking a fault is precise, whatever was raised. -/
theorem faultsPrecisely_of_takeFault {s : State} {op : Option Word} {e : Trap} {r : FaultRecord}
    (h : (takeFault op e s).run = .faulted r) : FaultsPrecisely s (takeFault op e s) op r := by
  rw [takeFault_run] at h
  cases h
  exact ⟨rfl, rfl, rfl⟩

/-- An instruction that enters `Faulted` does so precisely, and records its own word. -/
theorem faultsPrecisely_of_exec {i : Instr} {s t : State} {r : FaultRecord} (hs : faultFree s) (h : exec i s = .next t)
    (hr : t.run = .faulted r) : FaultsPrecisely s t (some (encode i)) r := by
  rcases exec_cases h with hc | ⟨e, -, rfl⟩
  · exact absurd hr (hc.faultFree hs r)
  · exact faultsPrecisely_of_takeFault hr

/-- A `Cycle` that enters `Faulted` does so precisely, and records the word fetched, or none where no fetch is allowed. -/
theorem faultsPrecisely_of_runningCycle {s t : State} {r : FaultRecord} (hs : faultFree s)
    (h : runningCycle s = .next t) (hr : t.run = .faulted r) :
    FaultsPrecisely s t (if fetchAllowed s.pc then some (wordAt s.mem s.pc) else none) r := by
  rcases runningCycle_cases h with ⟨hf, rfl⟩ | ⟨hf, -, rfl⟩ | ⟨hf, i, hi, hx⟩
  · rw [if_neg hf]; exact faultsPrecisely_of_takeFault hr
  · rw [if_pos hf]; exact faultsPrecisely_of_takeFault hr
  · rw [if_pos hf, ← encode_of_decodeWord hi]; exact faultsPrecisely_of_exec hs hx hr

/-- Only a `Cycle` of a running machine enters `Faulted`. -/
theorem runningCycle_of_enters_faulted {s t : State} {r : FaultRecord} (hs : faultFree s) (h : step s = .next t)
    (hr : t.run = .faulted r) : runsNext s ∧ runningCycle s.dequeued = .next t := by
  have hd : faultFree s.dequeued := hs
  rcases step_cases h with
    ⟨hk, hrun, hc⟩ | ⟨-, x, -, rfl⟩ | ⟨-, rfl⟩ | ⟨-, rfl⟩ | ⟨-, rfl⟩ | ⟨rom, readable, -, rfl⟩
  case inl => exact ⟨⟨hk, hrun⟩, hc⟩
  · exact absurd hr (faultFree_waitCycle hd x r)
  · exact absurd hr (faultFree_tick hd r)
  · exact absurd hr (faultFree_present hd r)
  · exact absurd hr (faultFree_shutdown hd r)
  · exact absurd hr (faultFree_load hd rom readable r)

/-- Settles O47: the step is a `Cycle` of a running machine, and each way such a cycle faults is precise. -/
theorem faultsArePrecise : Obligations.FaultsArePrecise := by
  intro s t r hs h hr
  obtain ⟨hnext, hcycle⟩ := runningCycle_of_enters_faulted hs h hr
  obtain ⟨ht, hpc, hop⟩ := faultsPrecisely_of_runningCycle (s := s.dequeued) hs hcycle hr
  exact ⟨ht, hnext, hpc, hop⟩

end Sys2Proof.Machine
end

section
/-! SUPPORT. The display instructions (41_display.md): what an update leaves unchanged, composed update by update; a sprite
read from memory and drawn, by the pixels it covers; and the obligations on CLS and DRW. -/

namespace Sys2Proof.Machine

/-! ### What an update leaves unchanged -/

theorem Part.same_trans {s t u : State} {p : Part} (hst : p.same s t) (htu : p.same t u) : p.same s u := by
  cases p
  case mem | regs => exact fun k => (htu k).trans (hst k)
  all_goals exact Eq.trans htu hst

/-- Two updates in a row change at most the parts that either changes. -/
theorem unchangedBut_trans {ps qs : List Part} {s t u : State} (hst : unchangedBut ps s t) (htu : unchangedBut qs t u) :
    unchangedBut (ps ++ qs) s u := fun p hp =>
  have ⟨hps, hqs⟩ := not_or.1 (hp ∘ List.mem_append.2)
  Part.same_trans (hst p hps) (htu p hqs)

theorem unchangedBut_setFb (s : State) (f : Frame) : unchangedBut [.fb] s (s.setFb f) := by
  intro p hp
  cases p
  case fb => exact absurd List.mem_cons_self hp
  all_goals simp [Part.same]

theorem unchangedBut_setV (s : State) (x : RegIx) (b : Byte) : unchangedBut [.regs] s (s.setV x b) := by
  intro p hp
  cases p
  case regs => exact absurd List.mem_cons_self hp
  all_goals simp [Part.same]

theorem unchangedBut_setDirty (s : State) (d : Bool) : unchangedBut [.dirty] s (s.setDirty d) := by
  intro p hp
  cases p
  case dirty => exact absurd List.mem_cons_self hp
  all_goals simp [Part.same]

theorem unchangedBut_setPc (s : State) (a : Word) : unchangedBut [.pc] s (s.setPc a) := by
  intro p hp
  cases p
  case pc => exact absurd List.mem_cons_self hp
  all_goals simp [Part.same]

theorem unchangedBut_advance (s : State) : unchangedBut [.pc] s s.advance := unchangedBut_setPc s _

/-- A finished draw changes the frame, the flag register, `dirty` and PC at most. -/
theorem unchangedBut_afterDrawing (s : State) (d : Drawing) : unchangedBut [.fb, .regs, .dirty, .pc] s (s.afterDrawing d) :=
  unchangedBut_trans (unchangedBut_trans (unchangedBut_trans (unchangedBut_setFb _ _) (unchangedBut_setV _ _ _))
    (unchangedBut_setDirty _ _)) (unchangedBut_advance _)

/-- A finished draw writes no register but VF (41_display.md R87). -/
theorem regsUnchangedBut_afterDrawing (s : State) (d : Drawing) : regsUnchangedBut [15#4] s (s.afterDrawing d) := by
  intro r hr
  have hvf : r ≠ vf := fun h => hr (List.mem_singleton.2 h)
  rw [State.getV_afterDrawing, if_neg hvf]

/-! ### CLS -/

/-- Settles O8: the cleared frame has every pixel off, and the three updates leave every other part. -/
theorem clearDisplay : Obligations.ClearDisplay := by
  refine ⟨⟨rfl, rfl⟩, fun s => ⟨_, rfl, fun x y => Frame.pixel_allOff x y, rfl, rfl, ?_⟩⟩
  exact unchangedBut_trans (unchangedBut_trans (unchangedBut_setFb _ _) (unchangedBut_setDirty _ _))
    (unchangedBut_advance _)

/-! ### A sprite read from memory, and drawn -/

section Sprite

variable {m : Memory} {base n : Nat} {rows : List Byte}

/-- A block read of bytes that are all accessible answers some list. -/
theorem readBytes_ok (h : ∀ k < n, dataAccessible (base + k)) : ∃ rows, readBytes m base n = .ok rows :=
  ⟨_, (readBytes_eq_ok_iff m n base _).2 ⟨h, rfl⟩⟩

theorem length_of_readBytes (h : readBytes m base n = .ok rows) : rows.length = n := by
  obtain ⟨-, rfl⟩ := (readBytes_eq_ok_iff m n base rows).1 h
  rw [List.length_map, List.length_range]

theorem eq_wrapX_iff {px : Fin 64} {k : Nat} : px = wrapX k ↔ px.val = k % 64 := by
  rw [Fin.ext_iff, wrapX, Fin.val_ofNat]

theorem eq_wrapY_iff {py : Fin 32} {k : Nat} : py = wrapY k ↔ py.val = k % 32 := by
  rw [Fin.ext_iff, wrapY, Fin.val_ofNat]

/-- The pixels a sprite covers, by the rows that were read. -/
theorem spriteCovers_iff_rows (h : readBytes m base n = .ok rows) {x0 y0 : Nat} {px : Fin 64} {py : Fin 32} :
    spriteCovers m base n x0 y0 px py ↔ ∃ r : Fin rows.length, ∃ c : Fin 8, rowBit rows[r] c = true ∧
      px = wrapX (x0 + c) ∧ py = wrapY (y0 + r) := by
  obtain ⟨-, rfl⟩ := (readBytes_eq_ok_iff m n base rows).1 h
  simp only [spriteCovers, eq_wrapX_iff, eq_wrapY_iff, rowBit, Fin.exists_iff, Fin.getElem_fin, List.getElem_map,
    List.getElem_range, List.length_map, List.length_range, exists_prop]

variable (f : Frame) (x y : Byte) {px : Fin 64} {py : Fin 32}

/-- A pixel under a 1 bit of the sprite is toggled (41_display.md R85, R86). -/
theorem pixel_drawSprite_of_covers (h : readBytes m base n = .ok rows) (hn : n ≤ 32)
    (hc : spriteCovers m base n (x.toNat % 64) (y.toNat % 32) px py) :
    (drawSprite f x y rows).fb.pixel px py = !f.pixel px py := by
  obtain ⟨hpixel, -, -⟩ := Drawing.rows_spec (x.toNat % 64) rows (y.toNat % 32) (.start f) (length_of_readBytes h ▸ hn)
  rw [drawSprite, hpixel, decide_eq_true ((spriteCovers_iff_rows h).1 hc), Bool.xor_true]
  rfl

/-- A pixel under no 1 bit of the sprite is left (41_display.md R85, R86). -/
theorem pixel_drawSprite_of_not_covers (h : readBytes m base n = .ok rows) (hn : n ≤ 32)
    (hc : ¬spriteCovers m base n (x.toNat % 64) (y.toNat % 32) px py) :
    (drawSprite f x y rows).fb.pixel px py = f.pixel px py := by
  obtain ⟨hpixel, -, -⟩ := Drawing.rows_spec (x.toNat % 64) rows (y.toNat % 32) (.start f) (length_of_readBytes h ▸ hn)
  rw [drawSprite, hpixel, decide_eq_false (mt (spriteCovers_iff_rows h).2 hc), Bool.xor_false]
  rfl

/-- A draw collides exactly if the sprite covers a pixel that was on (41_display.md R87). -/
theorem collision_drawSprite (h : readBytes m base n = .ok rows) (hn : n ≤ 32) :
    (drawSprite f x y rows).collision = true ↔
      ∃ px py, spriteCovers m base n (x.toNat % 64) (y.toNat % 32) px py ∧ f.pixel px py = true := by
  obtain ⟨-, hcollision, -⟩ := Drawing.rows_spec (x.toNat % 64) rows (y.toNat % 32) (.start f) (length_of_readBytes h ▸ hn)
  simp only [spriteCovers_iff_rows h]
  constructor
  case mp =>
    intro hd
    obtain hd | ⟨r, c, hbit, hon⟩ := hcollision.1 hd
    · cases hd
    · exact ⟨_, _, ⟨r, c, hbit, rfl, rfl⟩, hon⟩
  case mpr =>
    rintro ⟨_, _, ⟨r, c, hbit, rfl, rfl⟩, hon⟩
    exact hcollision.2 (.inr ⟨r, c, hbit, hon⟩)

/-- A draw changes a pixel exactly if the sprite covers one (41_display.md R90). -/
theorem changed_drawSprite (h : readBytes m base n = .ok rows) (hn : n ≤ 32) :
    (drawSprite f x y rows).changed = true ↔
      ∃ px py, spriteCovers m base n (x.toNat % 64) (y.toNat % 32) px py := by
  obtain ⟨-, -, hchanged⟩ := Drawing.rows_spec (x.toNat % 64) rows (y.toNat % 32) (.start f) (length_of_readBytes h ▸ hn)
  simp only [spriteCovers_iff_rows h]
  constructor
  case mp =>
    intro hd
    obtain hd | ⟨r, c, hbit⟩ := hchanged.1 hd
    · cases hd
    · exact ⟨_, _, r, c, hbit, rfl, rfl⟩
  case mpr =>
    rintro ⟨_, _, r, c, hbit, -, -⟩
    exact hchanged.2 (.inr ⟨r, c, hbit⟩)

end Sprite

/-! ### DRW -/

/-- DRW with its operands read draws the sprite (41_display.md R90). -/
theorem exec_drw {x y : RegIx} {n : Nibble} {s : State} {a b : Byte} {base : Word} {rows : List Byte} (hn : n ≠ 0#4)
    (hx : s.getV x = .holds a) (hy : s.getV y = .holds b) (hi : s.i = .holds base)
    (hrows : readBytes s.mem base.toNat n.toNat = .ok rows) :
    exec (.drw x y n) s = .next (s.afterDrawing (drawSprite s.fb a b rows)) := by
  show execDrw x y n s = _
  rw [execDrw, if_neg hn, readV_of_holds hx, readV_of_holds hy, readI_of_holds hi]
  simp only [bind, Except.bind, hrows]
  rfl

/-- VF after a draw is its collision bit (41_display.md R87). -/
theorem getV_vf_afterDrawing (s : State) (d : Drawing) :
    (s.afterDrawing d).getV 15#4 = .holds (if d.collision then 1 else 0) := by
  rw [State.getV_afterDrawing]; exact if_pos rfl

/-- Settles O9: the draw's pixels, its collision bit and its changed bit say what the sprite covers, and a finished draw
puts them in the frame, VF and `dirty`. -/
theorem drawSpriteTogglesAndCollides : Obligations.DrawSpriteTogglesAndCollides := by
  intro x y n s a b base hn hx hy hi hacc
  obtain ⟨rows, hrows⟩ := readBytes_ok (m := s.mem) hacc
  have hlen : n.toNat ≤ 32 := by omega
  have hcollision := collision_drawSprite s.fb a b hrows hlen
  have hchanged := changed_drawSprite s.fb a b hrows hlen
  refine ⟨_, exec_drw hn hx hy hi hrows, fun px py => ⟨?toggled, ?left⟩, fun h => ?collides, fun h => ?misses,
    regsUnchangedBut_afterDrawing _ _, fun h => ?dirty, fun h => ?clean, rfl, unchangedBut_afterDrawing _ _⟩
  case toggled => exact pixel_drawSprite_of_covers s.fb a b hrows hlen
  case left => exact pixel_drawSprite_of_not_covers s.fb a b hrows hlen
  case collides => rw [getV_vf_afterDrawing, if_pos (hcollision.2 h)]
  case misses => rw [getV_vf_afterDrawing, if_neg (mt hcollision.1 h)]
  case dirty => rw [State.afterDrawing_dirty, hchanged.2 h, Bool.or_true]
  case clean => rw [State.afterDrawing_dirty, Bool.eq_false_iff.2 (mt hchanged.1 h), Bool.or_false]

end Sys2Proof.Machine
end

section
/-! SUPPORT. The control-flow instructions (42_control_flow.md): the words of their families, what an operand read does to the
instruction that begins with it, what each instruction does by its rule, and the obligations on them. -/

namespace Sys2Proof.Machine

/-! ### The word of an instruction -/

section Word

variable {f : Nibble} {x y : RegIx} {n : Nibble} {nn : Byte} {nnn : Addr12} {i : Instr} {op : Word}

/-- A word that decodes to an instruction is its word for the encoder too. -/
theorem isWordOf_of_decodeWord (h : decodeWord op = .ok i) : isWordOf op i := ⟨encode_of_decodeWord h, h⟩

theorem isWordOf_opNNN (h : decodeWord (wordNNN f nnn) = .ok i) : isWordOf (opNNN (wordNNN f 0) nnn) i :=
  isWordOf_of_decodeWord (opNNN_eq_wordNNN f nnn ▸ h)

theorem isWordOf_opXNN (h : decodeWord (wordXNN f x nn) = .ok i) : isWordOf (opXNN (wordXNN f 0 0) x nn) i :=
  isWordOf_of_decodeWord (opXNN_eq_wordXNN f x nn ▸ h)

theorem isWordOf_opXY (h : decodeWord (wordXYN f x y n) = .ok i) : isWordOf (opXY (wordXYN f 0 0 n) x y) i :=
  isWordOf_of_decodeWord (opXY_eq_wordXYN f x y n ▸ h)

theorem decodeWord_opXY_or {r : Except DecodeReject Instr} (h : decodeWord (wordXYN f x y n) = r) :
    decodeWord (opXY (wordXYN f 0 0 0) x y ||| n.setWidth 16) = r :=
  opXY_or_eq_wordXYN f x y n ▸ h

end Word

theorem isWordOf_jp (nnn : Addr12) : isWordOf (opNNN 0x1000 nnn) (.jp nnn) :=
  isWordOf_opNNN (f := 0x1) (by simp [decodeWord])

theorem isWordOf_call (nnn : Addr12) : isWordOf (opNNN 0x2000 nnn) (.call nnn) :=
  isWordOf_opNNN (f := 0x2) (by simp [decodeWord])

theorem isWordOf_jpV0 (nnn : Addr12) : isWordOf (opNNN 0xB000 nnn) (.jpV0 nnn) :=
  isWordOf_opNNN (f := 0xB) (by simp [decodeWord])

theorem isWordOf_seVxNn (x : RegIx) (nn : Byte) : isWordOf (opXNN 0x3000 x nn) (.seVxNn x nn) :=
  isWordOf_opXNN (f := 0x3) (by simp [decodeWord])

theorem isWordOf_sneVxNn (x : RegIx) (nn : Byte) : isWordOf (opXNN 0x4000 x nn) (.sneVxNn x nn) :=
  isWordOf_opXNN (f := 0x4) (by simp [decodeWord])

theorem isWordOf_seVxVy (x y : RegIx) : isWordOf (opXY 0x5000 x y) (.seVxVy x y) :=
  isWordOf_opXY (f := 0x5) (n := 0x0) (by simp [decodeWord])

theorem isWordOf_sneVxVy (x y : RegIx) : isWordOf (opXY 0x9000 x y) (.sneVxVy x y) :=
  isWordOf_opXY (f := 0x9) (n := 0x0) (by simp [decodeWord])

theorem isWordOf_ret : isWordOf 0x00EE .ret := isWordOf_of_decodeWord rfl

/-- `5XYN` with a low nibble other than 0 is illegal (30_encoding.md R67). -/
theorem decodeWord_5XYN {x y : RegIx} {n : Nibble} (hn : n ≠ 0#4) :
    decodeWord (opXY 0x5000 x y ||| n.setWidth 16) = .error .selector5 :=
  decodeWord_opXY_or (f := 0x5) (by simp [decodeWord, hn])

/-- `9XYN` with a low nibble other than 0 is illegal (30_encoding.md R67). -/
theorem decodeWord_9XYN {x y : RegIx} {n : Nibble} (hn : n ≠ 0#4) :
    decodeWord (opXY 0x9000 x y ||| n.setWidth 16) = .error .selector9 :=
  decodeWord_opXY_or (f := 0x9) (by simp [decodeWord, hn])

/-! ### The end of an instruction, by its operand reads -/

section Reads

variable {i : Instr} {op : Word} {s : State} {x y : RegIx} {a b : Byte}

/-- An instruction whose pseudocode ends in an error raises it, with its own word in the record. -/
theorem raises_of_error {e : Trap} (hw : isWordOf op i) (h : exec i s = conclude i s (.error e)) :
    raises i op s e.code e.info := by
  obtain ⟨rfl, -⟩ := hw
  exact h

/-- An operand read of a register that holds a value goes on with the value. -/
theorem exec_of_readV {f : Byte → Except Trap State} (h : exec i s = conclude i s (readV x s >>= f))
    (hx : s.getV x = .holds a) : exec i s = conclude i s (f a) := by
  rw [h, readV_of_holds hx]; rfl

/-- An operand read of an uninitialised register is all the instruction does (60_exceptions.md R131). -/
theorem raises_of_readV {f : Byte → Except Trap State} (hw : isWordOf op i)
    (h : exec i s = conclude i s (readV x s >>= f)) (hx : s.getV x = .uninitialised) :
    raises i op s .uninitialisedRead (.register (.v x)) := by
  rw [readV_of_uninitialised hx] at h
  exact raises_of_error hw h

end Reads

/-! ### What the control-flow updates leave unchanged -/

theorem unchangedBut_setStack (s : State) (as : List Word) : unchangedBut [.stack] s (s.setStack as) := by
  intro p hp
  cases p
  case stack => exact absurd List.mem_cons_self hp
  all_goals simp [Part.same]

/-- A change of the stack and a jump leave every other part. -/
theorem unchangedBut_setStack_setPc (s : State) (as : List Word) (a : Word) :
    unchangedBut [.stack, .pc] s ((s.setStack as).setPc a) :=
  unchangedBut_trans (unchangedBut_setStack s as) (unchangedBut_setPc _ a)

theorem unchangedBut_skipIf (s : State) (c : Bool) : unchangedBut [.pc] s (s.skipIf c) := unchangedBut_setPc s _

/-! ### Jumps -/

/-- `NNN` as an address is the same number (30_encoding.md R64). -/
@[simp] theorem toNat_addrOf (nnn : Addr12) : (addrOf nnn).toNat = nnn.toNat :=
  BitVec.toNat_setWidth_of_le (by decide)

/-- The target of JP V0 is the sum itself: at most 4350, it does not wrap (42_control_flow.md R98). -/
theorem toNat_jpV0_target (nnn : Addr12) (a : Byte) :
    (BitVec.ofNat 16 (nnn.toNat + a.toNat)).toNat = nnn.toNat + a.toNat := by
  have := nnn.isLt
  have := a.isLt
  rw [BitVec.toNat_ofNat, Nat.mod_eq_of_lt (by omega)]

/-- JP, by its rule (42_control_flow.md R92). -/
theorem exec_jp (nnn : Addr12) (s : State) : exec (.jp nnn) s = .next (s.setPc (addrOf nnn)) := rfl

/-- JP V0, by its rule (42_control_flow.md R98). -/
theorem exec_jpV0 (nnn : Addr12) (s : State) : exec (.jpV0 nnn) s =
    conclude (.jpV0 nnn) s (readV 0#4 s >>= fun a => pure (s.setPc (BitVec.ofNat 16 (nnn.toNat + a.toNat)))) := rfl

/-- Settles O13: the jump's one update, read as a number. -/
theorem jumpSetsPc : Obligations.JumpSetsPc := fun nnn s =>
  ⟨isWordOf_jp nnn, _, exec_jp nnn s, toNat_addrOf nnn, unchangedBut_setPc s _⟩

/-- Settles O17: the read of V0, then a jump to a sum that does not wrap. -/
theorem jumpPlusV0 : Obligations.JumpPlusV0 := by
  intro nnn s
  refine ⟨isWordOf_jpV0 nnn, fun a ha => ?jumps, raises_of_readV (isWordOf_jpV0 nnn) (exec_jpV0 nnn s)⟩
  case jumps =>
    exact ⟨_, exec_of_readV (exec_jpV0 nnn s) ha, toNat_jpV0_target nnn a, unchangedBut_setPc s _⟩

/-! ### Subroutines -/

section Subroutines

variable {s : State}

/-- RET pops the last return address into PC (42_control_flow.md R91). -/
theorem exec_ret {as : List Word} {a : Word} (h : s.stack = as ++ [a]) :
    exec .ret s = .next ((s.setStack as).setPc a) := by
  show execRet s = _
  rw [execRet, h, List.getLast?_concat, List.dropLast_concat, conclude_ok]

/-- RET with nothing to pop (42_control_flow.md R91). -/
theorem exec_ret_of_empty (h : s.stack = []) : exec .ret s = conclude .ret s (.error (stackTrap .pop)) := by
  show execRet s = _
  rw [execRet, h, List.getLast?_nil]

/-- CALL with room on the stack pushes PC + 2 and jumps (42_control_flow.md R93). -/
theorem exec_call (nnn : Addr12) (h : s.stack.length < 48) :
    exec (.call nnn) s = .next ((s.setStack (s.stack ++ [s.pc + 2])).setPc (addrOf nnn)) := by
  show execCall nnn s = _
  rw [execCall, if_neg (Nat.not_le_of_lt h), conclude_ok]

/-- CALL on a full stack (42_control_flow.md R93). -/
theorem exec_call_of_full (nnn : Addr12) (h : 48 ≤ s.stack.length) :
    exec (.call nnn) s = conclude (.call nnn) s (.error (stackTrap .push)) := by
  show execCall nnn s = _
  rw [execCall, if_pos h]

end Subroutines

/-- Settles O11: a stack with a last address pops it, an empty one faults. -/
theorem returnPopsStack : Obligations.ReturnPopsStack := by
  refine ⟨isWordOf_ret, fun s => ⟨fun as a h => ?pops, fun h => ?faults⟩⟩
  case pops => exact ⟨_, exec_ret h, rfl, rfl, unchangedBut_setStack_setPc s as a⟩
  case faults => exact raises_of_error isWordOf_ret (exec_ret_of_empty h)

/-- Settles O14: below 48 entries the push and the jump, at 48 the fault. -/
theorem callPushesReturnAddress : Obligations.CallPushesReturnAddress := by
  intro nnn s
  refine ⟨isWordOf_call nnn, fun h => ?pushes, fun h => ?faults⟩
  case pushes => exact ⟨_, exec_call nnn h, rfl, toNat_addrOf nnn, unchangedBut_setStack_setPc s _ _⟩
  case faults => exact raises_of_error (isWordOf_call nnn) (exec_call_of_full nnn h.ge)

/-! ### Skips -/

section Skips

variable {i : Instr} {s : State} {a b : Byte}

/-- A skip on equality moves PC by 4 if the operands are equal and by 2 if not (40_execution_cycle.md R78). -/
theorem skips_of_beq (h : exec i s = .next (s.skipIf (a == b))) :
    ∃ t, exec i s = .next t ∧ t.pc = (if a = b then s.pc + 4 else s.pc + 2) ∧ unchangedBut [.pc] s t :=
  ⟨_, h, by simp only [State.skipIf_pc, beq_iff_eq], unchangedBut_skipIf s _⟩

/-- A skip on difference moves PC by 2 if the operands are equal and by 4 if not (40_execution_cycle.md R78). -/
theorem skips_of_bne (h : exec i s = .next (s.skipIf (a != b))) :
    ∃ t, exec i s = .next t ∧ t.pc = (if a = b then s.pc + 2 else s.pc + 4) ∧ unchangedBut [.pc] s t :=
  ⟨_, h, by simp only [State.skipIf_pc, bne_iff_ne, ite_not], unchangedBut_skipIf s _⟩

end Skips

/-- SE with a byte, by its rule (42_control_flow.md R94). -/
theorem exec_seVxNn (x : RegIx) (nn : Byte) (s : State) : exec (.seVxNn x nn) s =
    conclude (.seVxNn x nn) s (readV x s >>= fun a => pure (s.skipIf (a == nn))) := rfl

/-- SNE with a byte, by its rule (42_control_flow.md R95). -/
theorem exec_sneVxNn (x : RegIx) (nn : Byte) (s : State) : exec (.sneVxNn x nn) s =
    conclude (.sneVxNn x nn) s (readV x s >>= fun a => pure (s.skipIf (a != nn))) := rfl

/-- SE with a register, by its rule (42_control_flow.md R96). -/
theorem exec_seVxVy (x y : RegIx) (s : State) : exec (.seVxVy x y) s =
    conclude (.seVxVy x y) s (readV x s >>= fun a => readV y s >>= fun b => pure (s.skipIf (a == b))) := rfl

/-- SNE with a register, by its rule (42_control_flow.md R97). -/
theorem exec_sneVxVy (x y : RegIx) (s : State) : exec (.sneVxVy x y) s =
    conclude (.sneVxVy x y) s (readV x s >>= fun a => readV y s >>= fun b => pure (s.skipIf (a != b))) := rfl

/-- Settles O15: one operand read, then the skip on equality or on difference. -/
theorem skipsComparingByte : Obligations.SkipsComparingByte := by
  intro x nn s
  have hse := exec_seVxNn x nn s
  have hsne := exec_sneVxNn x nn s
  refine ⟨isWordOf_seVxNn x nn, isWordOf_sneVxNn x nn, fun a ha => ?skips, fun hx => ?faults⟩
  case skips => exact ⟨skips_of_beq (exec_of_readV hse ha), skips_of_bne (exec_of_readV hsne ha)⟩
  case faults =>
    exact ⟨raises_of_readV (isWordOf_seVxNn x nn) hse hx, raises_of_readV (isWordOf_sneVxNn x nn) hsne hx⟩

/-- Settles O16: the two operand reads in their order, then the skip on equality or on difference. -/
theorem skipsComparingRegister : Obligations.SkipsComparingRegister := by
  intro x y s
  have hse := exec_seVxVy x y s
  have hsne := exec_sneVxVy x y s
  refine ⟨isWordOf_seVxVy x y, isWordOf_sneVxVy x y, fun n hn => ?illegal, fun a b ha hb => ?skips,
    fun hx => ?firstFaults, fun a ha hy => ?secondFaults⟩
  case illegal => exact ⟨⟨_, decodeWord_5XYN hn⟩, _, decodeWord_9XYN hn⟩
  case skips =>
    exact ⟨skips_of_beq (exec_of_readV (exec_of_readV hse ha) hb),
      skips_of_bne (exec_of_readV (exec_of_readV hsne ha) hb)⟩
  case firstFaults =>
    exact ⟨raises_of_readV (isWordOf_seVxVy x y) hse hx, raises_of_readV (isWordOf_sneVxVy x y) hsne hx⟩
  case secondFaults =>
    exact ⟨raises_of_readV (isWordOf_seVxVy x y) (exec_of_readV hse ha) hy,
      raises_of_readV (isWordOf_sneVxVy x y) (exec_of_readV hsne ha) hy⟩

end Sys2Proof.Machine
end

section
/-! SUPPORT. The register and ALU instructions (43_register_alu.md): their words, their results and flags as numbers, the two
ways such an instruction ends (one register written, or a result and then the flag), and the obligations on them. -/

namespace Sys2Proof.Machine

/-! ### The words of the instructions (30_encoding.md R66) -/

section Word

variable (x y : RegIx) (nn : Byte)

theorem isWordOf_ldVxNn : isWordOf (opXNN 0x6000 x nn) (.ldVxNn x nn) :=
  isWordOf_opXNN (f := 0x6) (by simp [decodeWord])

theorem isWordOf_addVxNn : isWordOf (opXNN 0x7000 x nn) (.addVxNn x nn) :=
  isWordOf_opXNN (f := 0x7) (by simp [decodeWord])

theorem isWordOf_ldVxVy : isWordOf (opXY 0x8000 x y) (.ldVxVy x y) :=
  isWordOf_opXY (f := 0x8) (n := 0x0) (by simp [decodeWord, decode8])

theorem isWordOf_orVxVy : isWordOf (opXY 0x8001 x y) (.orVxVy x y) :=
  isWordOf_opXY (f := 0x8) (n := 0x1) (by simp [decodeWord, decode8])

theorem isWordOf_andVxVy : isWordOf (opXY 0x8002 x y) (.andVxVy x y) :=
  isWordOf_opXY (f := 0x8) (n := 0x2) (by simp [decodeWord, decode8])

theorem isWordOf_xorVxVy : isWordOf (opXY 0x8003 x y) (.xorVxVy x y) :=
  isWordOf_opXY (f := 0x8) (n := 0x3) (by simp [decodeWord, decode8])

theorem isWordOf_addVxVy : isWordOf (opXY 0x8004 x y) (.addVxVy x y) :=
  isWordOf_opXY (f := 0x8) (n := 0x4) (by simp [decodeWord, decode8])

theorem isWordOf_sub : isWordOf (opXY 0x8005 x y) (.sub x y) :=
  isWordOf_opXY (f := 0x8) (n := 0x5) (by simp [decodeWord, decode8])

theorem isWordOf_shr : isWordOf (opXY 0x8006 x y) (.shr x y) :=
  isWordOf_opXY (f := 0x8) (n := 0x6) (by simp [decodeWord, decode8])

theorem isWordOf_subn : isWordOf (opXY 0x8007 x y) (.subn x y) :=
  isWordOf_opXY (f := 0x8) (n := 0x7) (by simp [decodeWord, decode8])

theorem isWordOf_shl : isWordOf (opXY 0x800E x y) (.shl x y) :=
  isWordOf_opXY (f := 0x8) (n := 0xE) (by simp [decodeWord, decode8])

end Word

/-! ### Results and flags as numbers -/

/-- The difference is taken without a borrow where there is none, and from `a + 256` where there is one
(43_register_alu.md R109). -/
theorem differenceByte_eq (a b : Byte) : differenceByte a b =
    BitVec.ofNat 8 (if a.toNat < b.toNat then a.toNat + 256 - b.toNat else a.toNat - b.toNat) := by
  unfold differenceByte
  congr 1
  split <;> omega

theorem lsbFlag_eq (a : Byte) : lsbFlag a = BitVec.ofNat 8 (a.toNat % 2) := by
  apply BitVec.eq_of_toNat_eq
  rw [lsbFlag, BitVec.toNat_and, BitVec.toNat_ofNat]
  exact (Nat.and_one_is_mod _).trans (by omega)

theorem msbFlag_eq (a : Byte) : msbFlag a = BitVec.ofNat 8 (a.toNat / 128) := by
  apply BitVec.eq_of_toNat_eq
  rw [msbFlag, BitVec.toNat_ushiftRight, Nat.shiftRight_eq_div_pow, BitVec.toNat_ofNat]
  omega

/-- A right shift by one halves (43_register_alu.md R110). -/
theorem ushiftRight_one_eq (a : Byte) : a >>> 1 = BitVec.ofNat 8 (a.toNat / 2) := by
  apply BitVec.eq_of_toNat_eq
  rw [BitVec.toNat_ushiftRight, Nat.shiftRight_eq_div_pow, BitVec.toNat_ofNat]
  omega

/-- A left shift by one doubles modulo 256 (43_register_alu.md R112). -/
theorem shiftLeft_one_eq (a : Byte) : a <<< 1 = BitVec.ofNat 8 (a.toNat * 2 % 256) := by
  apply BitVec.eq_of_toNat_eq
  rw [BitVec.toNat_shiftLeft, Nat.shiftLeft_eq, BitVec.toNat_ofNat]
  omega

/-! ### The two ends of an instruction -/

theorem unchangedBut_setResultAndFlag (s : State) (x : RegIx) (b c : Byte) :
    unchangedBut [.regs] s (s.setResultAndFlag x b c) := by
  intro p hp
  cases p
  case regs => exact absurd List.mem_cons_self hp
  all_goals simp [Part.same]

section Ends

variable {i : Instr} {s : State} {x : RegIx} {b c : Byte}

/-- An instruction that ends by writing `V[X]` leaves every other register, VF among them, and every other part but PC. -/
theorem writes_register (h : exec i s = .next (s.setV x b).advance) :
    ∃ t, exec i s = .next t ∧ t.getV x = .holds b ∧ regsUnchangedBut [x] s t ∧ t.pc = s.pc + 2 ∧
      unchangedBut [.regs, .pc] s t := by
  refine ⟨_, h, State.getV_setV_self s x b, fun r hr => ?others, rfl,
    unchangedBut_trans (unchangedBut_setV s x b) (unchangedBut_advance _)⟩
  case others => exact State.getV_setV_of_ne s (fun e => hr (List.mem_singleton.2 e)) b

/-- An instruction that ends by writing a result and then a flag leaves the flag in VF, even where VF was the destination,
and the result in any other destination (43_register_alu.md R101). -/
theorem writes_resultAndFlag (h : exec i s = .next (s.setResultAndFlag x b c).advance) :
    ∃ t, exec i s = .next t ∧ t.getV 15#4 = .holds c ∧ (x ≠ 15#4 → t.getV x = .holds b) ∧
      regsUnchangedBut [x, 15#4] s t ∧ t.pc = s.pc + 2 ∧ unchangedBut [.regs, .pc] s t := by
  have hget (r : RegIx) : (s.setResultAndFlag x b c).advance.getV r =
      if r = 15#4 then .holds c else if r = x then .holds b else s.getV r := State.getV_setResultAndFlag s x r b c
  refine ⟨_, h, ?flag, fun hx => ?result, fun r hr => ?others, rfl,
    unchangedBut_trans (unchangedBut_setResultAndFlag s x b c) (unchangedBut_advance _)⟩
  case flag => rw [hget, if_pos rfl]
  case result => rw [hget, if_neg hx, if_pos rfl]
  case others =>
    obtain ⟨hx, hvf⟩ : r ≠ x ∧ r ≠ 15#4 := by simpa using hr
    rw [hget, if_neg hvf, if_neg hx]

end Ends

/-! ### One operand -/

/-- LD Vx, byte, by its rule (43_register_alu.md R102). -/
theorem exec_ldVxNn (x : RegIx) (nn : Byte) (s : State) : exec (.ldVxNn x nn) s = .next (s.setV x nn).advance := rfl

/-- ADD Vx, byte, by its rule (43_register_alu.md R103). -/
theorem exec_addVxNn (x : RegIx) (nn : Byte) (s : State) : exec (.addVxNn x nn) s =
    conclude (.addVxNn x nn) s (readV x s >>= fun a => pure (s.setV x (sumByte a nn)).advance) := rfl

/-- LD Vx, Vy, by its rule (43_register_alu.md R104). -/
theorem exec_ldVxVy (x y : RegIx) (s : State) : exec (.ldVxVy x y) s =
    conclude (.ldVxVy x y) s (readV y s >>= fun b => pure (s.setV x b).advance) := rfl

/-- SHR, by its rule (43_register_alu.md R110). -/
theorem exec_shr (x y : RegIx) (s : State) : exec (.shr x y) s =
    conclude (.shr x y) s (readV x s >>= fun a => pure (s.setResultAndFlag x (a >>> 1) (lsbFlag a)).advance) := rfl

/-- SHL, by its rule (43_register_alu.md R112). -/
theorem exec_shl (x y : RegIx) (s : State) : exec (.shl x y) s =
    conclude (.shl x y) s (readV x s >>= fun a => pure (s.setResultAndFlag x (a <<< 1) (msbFlag a)).advance) := rfl

/-- Settles O19: no operand is read, and one register is written. -/
theorem loadImmediate : Obligations.LoadImmediate := fun x nn s =>
  ⟨isWordOf_ldVxNn x nn, writes_register (exec_ldVxNn x nn s)⟩

/-- Settles O20: V[X] is read, then written with the sum; no flag is. -/
theorem addImmediateWithoutFlag : Obligations.AddImmediateWithoutFlag := by
  intro x nn s
  have hw := isWordOf_addVxNn x nn
  have h := exec_addVxNn x nn s
  exact ⟨hw, fun a ha => writes_register (exec_of_readV h ha), raises_of_readV hw h⟩

/-- Settles O21: V[Y] alone is read, then V[X] written with it. -/
theorem copyRegister : Obligations.CopyRegister := by
  intro x y s
  have hw := isWordOf_ldVxVy x y
  have h := exec_ldVxVy x y s
  exact ⟨hw, fun b hb => writes_register (exec_of_readV h hb), raises_of_readV hw h⟩

/-- Settles O26: V[X] alone is read; the shifted value and the bit shifted out are quotients and remainders of it. -/
theorem shiftsInPlace : Obligations.ShiftsInPlace := by
  intro x y s
  have hshr := exec_shr x y s
  have hshl := exec_shl x y s
  refine ⟨isWordOf_shr x y, isWordOf_shl x y, fun a ha => ⟨?right, ?left⟩, fun hx => ?faults⟩
  case right =>
    rw [← lsbFlag_eq, ← ushiftRight_one_eq]
    exact writes_resultAndFlag (exec_of_readV hshr ha)
  case left =>
    rw [← msbFlag_eq, ← shiftLeft_one_eq]
    exact writes_resultAndFlag (exec_of_readV hshl ha)
  case faults => exact ⟨raises_of_readV (isWordOf_shr x y) hshr hx, raises_of_readV (isWordOf_shl x y) hshl hx⟩

/-! ### Two operands, no flag -/

/-- OR, by its rule (43_register_alu.md R105). -/
theorem exec_orVxVy (x y : RegIx) (s : State) : exec (.orVxVy x y) s =
    conclude (.orVxVy x y) s (readV x s >>= fun a => readV y s >>= fun b => pure (s.setV x (a ||| b)).advance) := rfl

/-- AND, by its rule (43_register_alu.md R106). -/
theorem exec_andVxVy (x y : RegIx) (s : State) : exec (.andVxVy x y) s =
    conclude (.andVxVy x y) s (readV x s >>= fun a => readV y s >>= fun b => pure (s.setV x (a &&& b)).advance) := rfl

/-- XOR, by its rule (43_register_alu.md R107). -/
theorem exec_xorVxVy (x y : RegIx) (s : State) : exec (.xorVxVy x y) s =
    conclude (.xorVxVy x y) s (readV x s >>= fun a => readV y s >>= fun b => pure (s.setV x (a ^^^ b)).advance) := rfl

/-- Settles O22: each of the three reads V[X] and V[Y] in this order, then writes V[X] alone with its result. -/
theorem logicalOperationsWithoutFlag : Obligations.LogicalOperationsWithoutFlag := by
  intro i op f x y s hmem
  obtain ⟨hw, h⟩ : isWordOf op i ∧ exec i s = conclude i s
      (readV x s >>= fun a => readV y s >>= fun b => pure (s.setV x (f a b)).advance) := by
    simp only [List.mem_cons, List.not_mem_nil, or_false, Prod.mk.injEq] at hmem
    rcases hmem with ⟨rfl, rfl, rfl⟩ | ⟨rfl, rfl, rfl⟩ | ⟨rfl, rfl, rfl⟩
    · exact ⟨isWordOf_orVxVy x y, exec_orVxVy x y s⟩
    · exact ⟨isWordOf_andVxVy x y, exec_andVxVy x y s⟩
    · exact ⟨isWordOf_xorVxVy x y, exec_xorVxVy x y s⟩
  exact ⟨hw, fun a b ha hb => writes_register (exec_of_readV (exec_of_readV h ha) hb), raises_of_readV hw h,
    fun a ha => raises_of_readV hw (exec_of_readV h ha)⟩

/-! ### Two operands and the flag -/

/-- ADD Vx, Vy, by its rule (43_register_alu.md R108). -/
theorem exec_addVxVy (x y : RegIx) (s : State) : exec (.addVxVy x y) s =
    conclude (.addVxVy x y) s (readV x s >>= fun a => readV y s >>= fun b =>
      pure (s.setResultAndFlag x (sumByte a b) (carryFlag a b)).advance) := rfl

/-- SUB, by its rule (43_register_alu.md R109). -/
theorem exec_sub (x y : RegIx) (s : State) : exec (.sub x y) s =
    conclude (.sub x y) s (readV x s >>= fun a => readV y s >>= fun b =>
      pure (s.setResultAndFlag x (differenceByte a b) (noBorrowFlag a b)).advance) := rfl

/-- SUBN, by its rule (43_register_alu.md R111). -/
theorem exec_subn (x y : RegIx) (s : State) : exec (.subn x y) s =
    conclude (.subn x y) s (readV x s >>= fun a => readV y s >>= fun b =>
      pure (s.setResultAndFlag x (differenceByte b a) (noBorrowFlag b a)).advance) := rfl

/-- Settles O23: both operands are read before the sum and then the carry are written. -/
theorem addWithCarry : Obligations.AddWithCarry := by
  intro x y s
  have hw := isWordOf_addVxVy x y
  have h := exec_addVxVy x y s
  exact ⟨hw, fun a b ha hb => writes_resultAndFlag (exec_of_readV (exec_of_readV h ha) hb), raises_of_readV hw h,
    fun a ha => raises_of_readV hw (exec_of_readV h ha)⟩

/-- Settles O24: both operands are read before the difference and then the flag are written. -/
theorem subtractWithoutBorrowFlag : Obligations.SubtractWithoutBorrowFlag := by
  intro x y s
  have hw := isWordOf_sub x y
  have h := exec_sub x y s
  refine ⟨hw, fun a b ha hb => ?subtracts, raises_of_readV hw h, fun a ha => raises_of_readV hw (exec_of_readV h ha)⟩
  case subtracts =>
    rw [← differenceByte_eq]
    exact writes_resultAndFlag (exec_of_readV (exec_of_readV h ha) hb)

/-- Settles O25: as for SUB, with V[Y] the minuend; V[X] is still read first. -/
theorem reversedSubtract : Obligations.ReversedSubtract := by
  intro x y s
  have hw := isWordOf_subn x y
  have h := exec_subn x y s
  refine ⟨hw, fun a b ha hb => ?subtracts, raises_of_readV hw h, fun a ha => raises_of_readV hw (exec_of_readV h ha)⟩
  case subtracts =>
    rw [← differenceByte_eq]
    exact writes_resultAndFlag (exec_of_readV (exec_of_readV h ha) hb)

end Sys2Proof.Machine
end

section
/-! SUPPORT. The index-register and memory instructions (44_index_memory.md): their words, the end of an instruction after an
operation that answers or raises, what a block of registers or of memory holds after a move, and the obligations on them. -/

namespace Sys2Proof.Machine

/-! ### The words of the instructions (30_encoding.md R66) -/

section Word

variable (x : RegIx)

theorem isWordOf_opX {f : Nibble} {nn : Byte} {i : Instr} (h : decodeWord (wordXNN f x nn) = .ok i) :
    isWordOf (opX (wordXNN f 0 nn) x) i :=
  isWordOf_of_decodeWord (opX_eq_wordXNN f x nn ▸ h)

theorem isWordOf_ldINnn (nnn : Addr12) : isWordOf (opNNN 0xA000 nnn) (.ldINnn nnn) :=
  isWordOf_opNNN (f := 0xA) (by simp [decodeWord])

theorem isWordOf_addIVx : isWordOf (opX 0xF01E x) (.addIVx x) :=
  isWordOf_opX (f := 0xF) (nn := 0x1E) x (by simp [decodeWord, decodeF])

theorem isWordOf_ldFVx : isWordOf (opX 0xF029 x) (.ldFVx x) :=
  isWordOf_opX (f := 0xF) (nn := 0x29) x (by simp [decodeWord, decodeF])

theorem isWordOf_ldBVx : isWordOf (opX 0xF033 x) (.ldBVx x) :=
  isWordOf_opX (f := 0xF) (nn := 0x33) x (by simp [decodeWord, decodeF])

theorem isWordOf_ldMemVx : isWordOf (opX 0xF055 x) (.ldMemVx x) :=
  isWordOf_opX (f := 0xF) (nn := 0x55) x (by simp [decodeWord, decodeF])

theorem isWordOf_ldVxMem : isWordOf (opX 0xF065 x) (.ldVxMem x) :=
  isWordOf_opX (f := 0xF) (nn := 0x65) x (by simp [decodeWord, decodeF])

end Word

/-! ### The end of an instruction, by the operations of its pseudocode -/

section Operations

variable {α : Type} {i : Instr} {op : Word} {s : State} {r : Except Trap α} {f : α → Except Trap State}

/-- An instruction whose first operation answers goes on with the answer. -/
theorem exec_of_ok {a : α} (h : exec i s = conclude i s (r >>= f)) (hr : r = .ok a) :
    exec i s = conclude i s (f a) := by
  rw [h, hr]; rfl

/-- An instruction whose first operation raises a fault does nothing else (40_execution_cycle.md R82). -/
theorem raises_of_bind_error {e : Trap} (hw : isWordOf op i) (h : exec i s = conclude i s (r >>= f))
    (hr : r = .error e) : raises i op s e.code e.info :=
  raises_of_error hw (by rw [h, hr]; rfl)

end Operations

/-! ### What the updates leave unchanged -/

theorem unchangedBut_setI (s : State) (a : Word) : unchangedBut [.i] s (s.setI a) := by
  intro p hp
  cases p
  case i => exact absurd List.mem_cons_self hp
  all_goals simp [Part.same]

theorem unchangedBut_setMem (s : State) (m : Memory) : unchangedBut [.mem] s (s.setMem m) := by
  intro p hp
  cases p
  case mem => exact absurd List.mem_cons_self hp
  all_goals simp [Part.same]

theorem unchangedBut_setVs (s : State) (k : Nat) (bs : List Byte) : unchangedBut [.regs] s (s.setVs k bs) := by
  intro p hp
  cases p
  case regs => exact absurd List.mem_cons_self hp
  all_goals simp [Part.same]

/-! ### Writes to I -/

/-- An instruction that ends by writing `I` leaves every other part but PC, the registers with VF among them. -/
theorem writes_index {i : Instr} {s : State} {a : Word} (h : exec i s = .next (s.setI a).advance) :
    ∃ t, exec i s = .next t ∧ t.i = .holds a ∧ t.pc = s.pc + 2 ∧ unchangedBut [.i, .pc] s t :=
  ⟨_, h, rfl, rfl, unchangedBut_trans (unchangedBut_setI s a) (unchangedBut_advance _)⟩

/-- `NNN` as an address is the word of the same number (30_encoding.md R64). -/
theorem addrOf_eq_ofNat (nnn : Addr12) : addrOf nnn = BitVec.ofNat 16 nnn.toNat := by
  rw [← toNat_addrOf, BitVec.ofNat_toNat, BitVec.setWidth_eq]

/-- A glyph's address is at most 75, so it does not wrap (44_index_memory.md R116). -/
theorem toNat_glyphAddress (v : Byte) : (glyphAddress v).toNat = v.toNat % 16 * 5 := by
  rw [glyphAddress, BitVec.toNat_ofNat, Nat.mod_eq_of_lt (by omega)]

/-- LD I, by its rule (44_index_memory.md R114). -/
theorem exec_ldINnn (nnn : Addr12) (s : State) : exec (.ldINnn nnn) s = .next (s.setI (addrOf nnn)).advance := rfl

/-- ADD I, Vx, by its rule (44_index_memory.md R115). -/
theorem exec_addIVx (x : RegIx) (s : State) : exec (.addIVx x) s =
    conclude (.addIVx x) s (readI s >>= fun a => readV x s >>= fun v =>
      pure (s.setI (BitVec.ofNat 16 ((a.toNat + v.toNat) % 65536))).advance) := rfl

/-- LD F, Vx, by its rule (44_index_memory.md R116). -/
theorem exec_ldFVx (x : RegIx) (s : State) : exec (.ldFVx x) s =
    conclude (.ldFVx x) s (readV x s >>= fun v => pure (s.setI (glyphAddress v)).advance) := rfl

/-- Settles O28: no operand is read, and `I` alone is written. -/
theorem loadIndex : Obligations.LoadIndex := fun nnn s =>
  ⟨isWordOf_ldINnn nnn, addrOf_eq_ofNat nnn ▸ writes_index (exec_ldINnn nnn s)⟩

/-- Settles O29: `I` is read before V[X], then written with the sum; no flag is. -/
theorem addToIndex : Obligations.AddToIndex := by
  intro x s
  have hw := isWordOf_addIVx x
  have h := exec_addIVx x s
  have hindex {a : Word} (ha : s.i = .holds a) := exec_of_ok h (readI_of_holds ha)
  refine ⟨hw, fun a v ha hv => ?adds, fun hi => ?indexFaults, fun a ha => raises_of_readV hw (hindex ha)⟩
  case adds => exact writes_index (exec_of_readV (hindex ha) hv)
  case indexFaults => exact raises_of_bind_error hw h (readI_of_uninitialised hi)

/-- Settles O30: V[X] is read, then `I` written with an address that does not wrap. -/
theorem pointAtGlyph : Obligations.PointAtGlyph := by
  intro x s
  have hw := isWordOf_ldFVx x
  have h := exec_ldFVx x s
  refine ⟨hw, fun v hv => ?points, raises_of_readV hw h⟩
  case points =>
    obtain ⟨t, ht, hi, hrest⟩ := writes_index (exec_of_readV h hv)
    exact ⟨t, _, ht, hi, toNat_glyphAddress v, hrest⟩

/-! ### Blocks of memory written -/

section Stores

variable {m m' : Memory} {a : Nat} {bs : List Byte}

/-- Inside a block that was written stands the byte written there (20_memory.md R50). -/
theorem byteAt_of_writeBytes (hm : m.wf) (h : writeBytes m a bs = .ok m') {k : Nat} (hk : k < bs.length) :
    Memory.byteAt m' (a + k) = bs[k] := by
  obtain ⟨-, -, hread⟩ := writeBytes_spec bs m m' a hm h
  rw [hread, dif_pos ⟨Nat.le_add_right a k, Nat.add_lt_add_left hk a⟩]
  simp only [Nat.add_sub_cancel_left]

/-- Outside a block that was written every byte is as before (20_memory.md R50). -/
theorem memUnchangedOutside_of_writeBytes {s : State} (hm : s.mem.wf) (h : writeBytes s.mem a bs = .ok m') :
    memUnchangedOutside a bs.length s (s.setMem m').advance := by
  obtain ⟨-, -, hread⟩ := writeBytes_spec bs s.mem m' a hm h
  exact fun b hb => (hread b).trans (dif_neg hb)

/-- An instruction that ends by writing memory leaves every other part but PC, `I` among them. -/
theorem unchangedBut_setMem_advance (s : State) (m : Memory) : unchangedBut [.mem, .pc] s (s.setMem m).advance :=
  unchangedBut_trans (unchangedBut_setMem s m) (unchangedBut_advance _)

end Stores

/-! ### The decimal store -/

/-- LD B, Vx, by its rule (44_index_memory.md R117). -/
theorem exec_ldBVx (x : RegIx) (s : State) : exec (.ldBVx x) s =
    conclude (.ldBVx x) s (readV x s >>= fun v => readI s >>= fun base =>
      writeBytes s.mem base.toNat (decimalDigits v) >>= fun m => pure (s.setMem m).advance) := rfl

/-- A byte has three decimal digits (44_index_memory.md R117). -/
@[simp] theorem length_decimalDigits (v : Byte) : (decimalDigits v).length = 3 := rfl

/-- The three digits as numbers, exact for every byte (44_index_memory.md R117). -/
theorem toNat_decimalDigits (v : Byte) :
    (decimalDigits v)[0].toNat = v.toNat / 100 ∧ (decimalDigits v)[1].toNat = v.toNat / 10 % 10 ∧
      (decimalDigits v)[2].toNat = v.toNat % 10 := by
  have := v.isLt
  refine ⟨?_, ?_, ?_⟩ <;> exact Nat.mod_eq_of_lt (by omega)

/-- Settles O31: V[X] is read before `I`, then the three digits are written as one block. -/
theorem storeDecimalDigits : Obligations.StoreDecimalDigits := by
  intro x s hm
  have hw := isWordOf_ldBVx x
  have h := exec_ldBVx x s
  have hoperands {v : Byte} {base : Word} (hv : s.getV x = .holds v) (hi : s.i = .holds base) :=
    exec_of_ok (exec_of_readV h hv) (readI_of_holds hi)
  refine ⟨hw, fun v base hv hi hacc => ?stores, raises_of_readV hw h, fun v hv hi => ?indexFaults,
    fun v base k hv hi hk hacc hk' => ?accessFaults⟩
  case stores =>
    obtain ⟨m, hwrite⟩ := writeBytes_ok (decimalDigits v) s.mem base.toNat hacc
    have hdone : exec (.ldBVx x) s = .next (s.setMem m).advance := exec_of_ok (hoperands hv hi) hwrite
    have hdigit {k : Nat} (hk : k < 3) := byteAt_of_writeBytes (k := k) hm hwrite hk
    obtain ⟨hundreds, tens, ones⟩ := toNat_decimalDigits v
    refine ⟨_, hdone, ?_, ?_, ?_, memUnchangedOutside_of_writeBytes hm hwrite, rfl, unchangedBut_setMem_advance s m⟩
    · exact (congrArg BitVec.toNat (hdigit (k := 0) (by decide))).trans hundreds
    · exact (congrArg BitVec.toNat (hdigit (k := 1) (by decide))).trans tens
    · exact (congrArg BitVec.toNat (hdigit (k := 2) (by decide))).trans ones
  case indexFaults => exact raises_of_bind_error hw (exec_of_readV h hv) (readI_of_uninitialised hi)
  case accessFaults =>
    exact raises_of_bind_error hw (hoperands hv hi) (writeBytes_error (decimalDigits v) s.mem base.toNat k hk hacc hk')

/-! ### Blocks of registers -/

section Registers

variable {s : State} {x : RegIx} {bs : List Byte}

/-- A register's number names it. -/
theorem ofNat_toNat_regIx (r : RegIx) : BitVec.ofNat 4 r.toNat = r := by
  rw [BitVec.ofNat_toNat, BitVec.setWidth_eq]

theorem length_of_readVs (h : readVs s 0 (blockSize x) = .ok bs) : bs.length = x.toNat + 1 :=
  ((readVs_eq_ok_iff s _ 0 bs).1 h).1

/-- Each byte a block read answers is the value of its register (44_index_memory.md R118). -/
theorem getV_of_readVs (h : readVs s 0 (blockSize x) = .ok bs) {r : RegIx} (hr : r.toNat < bs.length) :
    s.getV r = .holds bs[r.toNat] := by
  obtain ⟨-, hget⟩ := (readVs_eq_ok_iff s _ 0 bs).1 h
  have := hget r.toNat hr
  rwa [Nat.zero_add, ofNat_toNat_regIx] at this

/-- A block read of registers that all hold values answers. -/
theorem readVs_ok (h : ∀ r : RegIx, r.toNat ≤ x.toNat → s.getV r ≠ .uninitialised) :
    ∃ bs, readVs s 0 (blockSize x) = .ok bs := by
  have hholds (r : RegIx) : ∃ b, r.toNat ≤ x.toNat → s.getV r = .holds b := by
    cases hr : s.getV r with
    | uninitialised => exact ⟨0, fun hle => absurd hr (h r hle)⟩
    | holds b => exact ⟨b, fun _ => rfl⟩
  choose value hvalue using hholds
  refine ⟨(List.range (blockSize x)).map fun k => value (BitVec.ofNat 4 k), (readVs_eq_ok_iff s _ 0 _).2
    ⟨by simp, fun j hj => ?_⟩⟩
  have hj : j < x.toNat + 1 := by simpa [blockSize] using hj
  rw [Nat.zero_add, List.getElem_map, List.getElem_range, hvalue]
  rw [BitVec.toNat_ofNat]; omega

/-- A block read raises the fault of its first uninitialised register (44_index_memory.md R118). -/
theorem readVs_error_of_first {r : RegIx} (hr : r.toNat ≤ x.toNat) (hu : s.getV r = .uninitialised)
    (hlow : ∀ q : RegIx, q.toNat < r.toNat → s.getV q ≠ .uninitialised) :
    readVs s 0 (blockSize x) = .error (uninitTrap (.v r)) := by
  have h := readVs_error s (blockSize x) 0 r.toNat (Nat.lt_succ_of_le hr)
  simp only [Nat.zero_add, ofNat_toNat_regIx] at h
  refine h (fun k hk => hlow _ ?_) hu
  rw [BitVec.toNat_ofNat]; omega

/-- After a block load, the registers of the block hold the bytes read, and the others what they held
(44_index_memory.md R119). -/
theorem getV_setVs_of_readBytes {a : Nat} (h : readBytes s.mem a (blockSize x) = .ok bs) (r : RegIx) :
    (s.setVs 0 bs).getV r =
      if r.toNat ≤ x.toNat then .holds (Memory.byteAt s.mem (a + r.toNat)) else s.getV r := by
  obtain ⟨-, rfl⟩ := (readBytes_eq_ok_iff s.mem _ a bs).1 h
  rw [State.getV_setVs _ _ _ (by simp [blockSize]; omega)]
  simp [blockSize]

end Registers

/-! ### The block store and the block load -/

/-- LD [I], Vx, by its rule (44_index_memory.md R118). -/
theorem exec_ldMemVx (x : RegIx) (s : State) : exec (.ldMemVx x) s =
    conclude (.ldMemVx x) s (readI s >>= fun base => readVs s 0 (blockSize x) >>= fun vs =>
      writeBytes s.mem base.toNat vs >>= fun m => pure (s.setMem m).advance) := rfl

/-- LD Vx, [I], by its rule (44_index_memory.md R119). -/
theorem exec_ldVxMem (x : RegIx) (s : State) : exec (.ldVxMem x) s =
    conclude (.ldVxMem x) s (readI s >>= fun base => readBytes s.mem base.toNat (blockSize x) >>= fun bs =>
      pure (s.setVs 0 bs).advance) := rfl

/-- Settles O32: `I` is read, then the registers, then their values are written as one block. -/
theorem storeRegisterBlock : Obligations.StoreRegisterBlock := by
  intro x s hm
  have hw := isWordOf_ldMemVx x
  have h := exec_ldMemVx x s
  have hindex {base : Word} (hi : s.i = .holds base) := exec_of_ok h (readI_of_holds hi)
  have hoperands {base : Word} {vs : List Byte} (hi : s.i = .holds base) (hvs : readVs s 0 (blockSize x) = .ok vs) :=
    exec_of_ok (hindex hi) hvs
  refine ⟨hw, fun base hi hregs hacc => ?stores, fun hi => ?indexFaults, fun base r hi hr hu hlow => ?registerFaults,
    fun base k hi hregs hk hacc hk' => ?accessFaults⟩
  case stores =>
    obtain ⟨vs, hvs⟩ := readVs_ok hregs
    have hlen := length_of_readVs hvs
    obtain ⟨m, hwrite⟩ := writeBytes_ok vs s.mem base.toNat fun k hk => hacc k (by omega)
    have hdone : exec (.ldMemVx x) s = .next (s.setMem m).advance := exec_of_ok (hoperands hi hvs) hwrite
    refine ⟨_, hdone, fun r hr => ?_, hlen ▸ memUnchangedOutside_of_writeBytes hm hwrite, rfl,
      unchangedBut_setMem_advance s m⟩
    have hr : r.toNat < vs.length := by omega
    exact (getV_of_readVs hvs hr).trans (congrArg _ (byteAt_of_writeBytes hm hwrite hr).symm)
  case indexFaults => exact raises_of_bind_error hw h (readI_of_uninitialised hi)
  case registerFaults =>
    exact raises_of_bind_error hw (hindex hi) (readVs_error_of_first hr hu hlow)
  case accessFaults =>
    obtain ⟨vs, hvs⟩ := readVs_ok hregs
    have hlen := length_of_readVs hvs
    exact raises_of_bind_error hw (hoperands hi hvs)
      (writeBytes_error vs s.mem base.toNat k (by omega) hacc hk')

/-- Settles O33: `I` is read, then the whole block of memory, and only then are the registers written. -/
theorem loadRegisterBlock : Obligations.LoadRegisterBlock := by
  intro x s
  have hw := isWordOf_ldVxMem x
  have h := exec_ldVxMem x s
  have hindex {base : Word} (hi : s.i = .holds base) := exec_of_ok h (readI_of_holds hi)
  refine ⟨hw, fun base hi hacc => ?loads, fun hi => ?indexFaults, fun base k hi hk hacc hk' => ?accessFaults⟩
  case loads =>
    obtain ⟨bs, hbs⟩ := readBytes_ok (m := s.mem) (n := blockSize x) fun k hk => hacc k (Nat.le_of_lt_succ hk)
    have hget := getV_setVs_of_readBytes hbs
    have hdone : exec (.ldVxMem x) s = .next (s.setVs 0 bs).advance := exec_of_ok (hindex hi) hbs
    exact ⟨_, hdone, fun r hr => (hget r).trans (if_pos hr),
      fun r hr => (hget r).trans (if_neg (Nat.not_le_of_lt hr)), congrArg (· + 2) (State.setVs_pc bs s 0),
      unchangedBut_trans (unchangedBut_setVs s 0 bs) (unchangedBut_advance _)⟩
  case indexFaults => exact raises_of_bind_error hw h (readI_of_uninitialised hi)
  case accessFaults =>
    exact raises_of_bind_error hw (hindex hi) (readBytes_error s.mem _ base.toNat k (Nat.lt_succ_of_le hk) hacc hk')

end Sys2Proof.Machine
end

section
/-! SUPPORT. The timer instructions (45_keys_timers.md): their words, what a write of one timer leaves unchanged, what each
instruction does by its rule, and the obligations on them. -/

namespace Sys2Proof.Machine

/-! ### The words of the instructions (30_encoding.md R66) -/

section Word

variable (x : RegIx)

theorem isWordOf_ldVxDt : isWordOf (opX 0xF007 x) (.ldVxDt x) :=
  isWordOf_opX (f := 0xF) (nn := 0x07) x (by simp [decodeWord, decodeF])

theorem isWordOf_ldDtVx : isWordOf (opX 0xF015 x) (.ldDtVx x) :=
  isWordOf_opX (f := 0xF) (nn := 0x15) x (by simp [decodeWord, decodeF])

theorem isWordOf_ldStVx : isWordOf (opX 0xF018 x) (.ldStVx x) :=
  isWordOf_opX (f := 0xF) (nn := 0x18) x (by simp [decodeWord, decodeF])

end Word

/-! ### Writes to a timer -/

theorem unchangedBut_setDt (s : State) (b : Byte) : unchangedBut [.dt] s (s.setDt b) := by
  intro p hp
  cases p
  case dt => exact absurd List.mem_cons_self hp
  all_goals simp [Part.same]

theorem unchangedBut_setSt (s : State) (b : Byte) : unchangedBut [.st] s (s.setSt b) := by
  intro p hp
  cases p
  case st => exact absurd List.mem_cons_self hp
  all_goals simp [Part.same]

section Ends

variable {i : Instr} {s : State} {b : Byte}

/-- An instruction that ends by writing DT leaves every other part but PC, ST among them. -/
theorem writes_delayTimer (h : exec i s = .next (s.setDt b).advance) :
    ∃ t, exec i s = .next t ∧ t.dt = b ∧ t.pc = s.pc + 2 ∧ unchangedBut [.dt, .pc] s t :=
  ⟨_, h, rfl, rfl, unchangedBut_trans (unchangedBut_setDt s b) (unchangedBut_advance _)⟩

/-- An instruction that ends by writing ST leaves every other part but PC, DT among them. -/
theorem writes_soundTimer (h : exec i s = .next (s.setSt b).advance) :
    ∃ t, exec i s = .next t ∧ t.st = b ∧ t.pc = s.pc + 2 ∧ unchangedBut [.st, .pc] s t :=
  ⟨_, h, rfl, rfl, unchangedBut_trans (unchangedBut_setSt s b) (unchangedBut_advance _)⟩

end Ends

/-! ### The instructions -/

/-- LD Vx, DT, by its rule (45_keys_timers.md R123). -/
theorem exec_ldVxDt (x : RegIx) (s : State) : exec (.ldVxDt x) s = .next (s.setV x s.dt).advance := rfl

/-- LD DT, Vx, by its rule (45_keys_timers.md R124). -/
theorem exec_ldDtVx (x : RegIx) (s : State) : exec (.ldDtVx x) s =
    conclude (.ldDtVx x) s (readV x s >>= fun b => pure (s.setDt b).advance) := rfl

/-- LD ST, Vx, by its rule (45_keys_timers.md R125). -/
theorem exec_ldStVx (x : RegIx) (s : State) : exec (.ldStVx x) s =
    conclude (.ldStVx x) s (readV x s >>= fun b => pure (s.setSt b).advance) := rfl

/-- Settles O38: V[X] is read, then one timer is written with it. -/
theorem writeTimers : Obligations.WriteTimers := by
  intro x s
  have hdt := exec_ldDtVx x s
  have hst := exec_ldStVx x s
  refine ⟨isWordOf_ldDtVx x, isWordOf_ldStVx x, fun b hb => ?writes, fun hx => ?faults⟩
  case writes => exact ⟨writes_delayTimer (exec_of_readV hdt hb), writes_soundTimer (exec_of_readV hst hb)⟩
  case faults => exact ⟨raises_of_readV (isWordOf_ldDtVx x) hdt hx, raises_of_readV (isWordOf_ldStVx x) hst hx⟩

/-- Settles O37: no register is read, and one is written with DT. -/
theorem readDelayTimer : Obligations.ReadDelayTimer := fun x s =>
  ⟨isWordOf_ldVxDt x, writes_register (exec_ldVxDt x s)⟩

end Sys2Proof.Machine
end

section
/-! SUPPORT. The steps of the environment (60_exceptions.md): what a Tick, a Present and a Shutdown do by the run state, and the
obligations on them and on a faulted machine. -/

namespace Sys2Proof.Machine

/-! ### What an update leaves unchanged -/

section Frame

variable {s t : State} {ps qs : List Part}

/-- A frame may name more parts than were changed. -/
theorem unchangedBut_mono (hsub : ps ⊆ qs) (h : unchangedBut ps s t) : unchangedBut qs s t :=
  fun p hp => h p (mt (@hsub p) hp)

theorem unchangedBut_refl (ps : List Part) (s : State) : unchangedBut ps s s := by
  intro p _
  cases p <;> simp [Part.same]

theorem unchangedBut_setRun (s : State) (r : RunState) : unchangedBut [.run] s (s.setRun r) := by
  intro p hp
  cases p
  case run => exact absurd List.mem_cons_self hp
  all_goals simp [Part.same]

theorem unchangedBut_setEnv (s : State) (e : Env) : unchangedBut [.env] s (s.setEnv e) := by
  intro p hp
  cases p
  case env => exact absurd List.mem_cons_self hp
  all_goals simp [Part.same]

theorem unchangedBut_dequeued (s : State) : unchangedBut [.env] s s.dequeued := unchangedBut_setEnv s _

/-- Using the environment's choice up before an update adds the environment's side to what changes. -/
theorem unchangedBut_of_dequeued (h : unchangedBut ps s.dequeued t) : unchangedBut (.env :: ps) s t :=
  unchangedBut_trans (unchangedBut_dequeued s) h

end Frame

/-! ### The step chosen, by the run state -/

section RunState

variable {s : State}

/-- A step is the step of the kind chosen, once the choice is used up (40_execution_cycle.md R72). -/
theorem step_of_nextKind {k : MachineStep} (hk : nextKind s = k) : step s = perform k s.dequeued := by
  subst hk; rfl

/-- The run states in which a Cycle exists, a Tick counts down and a Shutdown stops (40_execution_cycle.md R73, 60_exceptions.md
R137, R141). -/
def State.active (s : State) : Prop := s.run = .running ∨ ∃ x, s.run = .waitKey x

theorem not_active_iff : ¬s.active ↔ s.run = .unloaded ∨ (∃ r, s.run = .faulted r) ∨ s.run = .stopped := by
  unfold State.active
  cases s.run <;> simp

/-! ### Tick -/

/-- One count of a timer is a subtraction that stops at 0 (60_exceptions.md R137). -/
theorem toNat_countDown (b : Byte) : (countDown b).toNat = b.toNat - 1 := by
  unfold countDown
  split
  case isTrue h => rw [h]; rfl
  case isFalse h => bv_omega

theorem tick_of_active (h : s.active) : tick s = (s.setDt (countDown s.dt)).setSt (countDown s.st) := by
  obtain h | ⟨x, h⟩ := h <;> rw [tick, h]

theorem tick_of_not_active (h : ¬s.active) : tick s = s := by
  obtain h | ⟨r, h⟩ | h := not_active_iff.1 h <;> rw [tick, h]

/-- A Tick changes the two timers at most. -/
theorem unchangedBut_tick (s : State) : unchangedBut [.dt, .st] s (tick s) := by
  by_cases h : s.active
  · rw [tick_of_active h]
    exact unchangedBut_trans (unchangedBut_setDt s _) (unchangedBut_setSt _ _)
  · rw [tick_of_not_active h]
    exact unchangedBut_refl _ s

/-! ### Present -/

/-- A Present hands the host the frame, `dirty` and the snapshot of the state before it (60_exceptions.md R140, R143). -/
theorem present_env (s : State) : (present s).env =
    { s.env with received := s.env.received ++ [.frame s.fb s.dirty s.snapshot] } := rfl

/-- A Present changes `dirty` and what the host received at most. -/
theorem unchangedBut_present (s : State) : unchangedBut [.env, .dirty] s (present s) :=
  unchangedBut_trans (unchangedBut_setEnv s _) (unchangedBut_setDirty _ _)

/-! ### Shutdown -/

theorem shutdown_of_active (h : s.active) : shutdown s = s.setRun .stopped := by
  obtain h | ⟨x, h⟩ := h <;> rw [shutdown, h]

theorem shutdown_of_not_active (h : ¬s.active) : shutdown s = s := by
  obtain h | ⟨r, h⟩ | h := not_active_iff.1 h <;> rw [shutdown, h]

/-- A Shutdown changes the run state at most. -/
theorem unchangedBut_shutdown (s : State) : unchangedBut [.run] s (shutdown s) := by
  by_cases h : s.active
  · rw [shutdown_of_active h]
    exact unchangedBut_setRun s _
  · rw [shutdown_of_not_active h]
    exact unchangedBut_refl _ s

end RunState

/-! ### The obligations -/

/-- Settles O41: an active machine counts both timers down, any other is left as it is. -/
theorem tickCountsDown : Obligations.TickCountsDown := by
  intro s hk
  have hframe := unchangedBut_tick s.dequeued
  refine ⟨_, step_of_nextKind hk, hframe .env (by decide),
    unchangedBut_mono (by decide) (unchangedBut_of_dequeued hframe), fun h => ?counts, fun h => ?stays⟩
  case counts =>
    rw [tick_of_active (s := s.dequeued) h]
    exact ⟨toNat_countDown s.dt, toNat_countDown s.st⟩
  case stays =>
    rw [tick_of_not_active (s := s.dequeued) h]
    exact ⟨rfl, rfl⟩

/-- Settles O42: the snapshot handed over is that of the state before the step, in any run state. -/
theorem presentHandsOverFrame : Obligations.PresentHandsOverFrame := by
  intro s hk
  refine ⟨_, s.snapshot, step_of_nextKind hk, rfl, ?frame, present_env s.dequeued, ?snapshot⟩
  case frame => exact unchangedBut_mono (by decide) (unchangedBut_of_dequeued (unchangedBut_present s.dequeued))
  case snapshot => exact ⟨rfl, rfl, rfl, rfl, rfl, rfl, rfl⟩

/-- Settles O43: an active machine is stopped, any other is left as it is. -/
theorem shutdownStopsTheRun : Obligations.ShutdownStopsTheRun := by
  intro s hk
  have hframe := unchangedBut_shutdown s.dequeued
  refine ⟨_, step_of_nextKind hk, hframe .env (by decide),
    unchangedBut_mono (by decide) (unchangedBut_of_dequeued hframe), fun h => ?stops, fun h => ?stays⟩
  case stops => rw [shutdown_of_active (s := s.dequeued) h]; rfl
  case stays => rw [shutdown_of_not_active (s := s.dequeued) h]; rfl

/-- Settles O48: a faulted machine has no Cycle, its Tick and its Shutdown only use the environment's choice up, and a Present
keeps the run state; a Load is what remains. -/
theorem faultedIsTerminal : Obligations.FaultedIsTerminal := by
  intro s t r hr h
  have hna : ¬s.dequeued.active := not_active_iff.2 (.inr (.inl ⟨r, hr⟩))
  rcases step_cases h with
    ⟨-, hrun, -⟩ | ⟨-, x, hrun, -⟩ | ⟨-, rfl⟩ | ⟨hk, rfl⟩ | ⟨-, rfl⟩ | ⟨rom, readable, hk, -⟩
  case inl | inr.inl => exact absurd (hr.symm.trans hrun) nofun
  · rw [tick_of_not_active hna]
    exact .inr ⟨hr, .inr (unchangedBut_dequeued s)⟩
  · exact .inr ⟨hr, .inl hk⟩
  · rw [shutdown_of_not_active hna]
    exact .inr ⟨hr, .inr (unchangedBut_dequeued s)⟩
  · exact .inl ⟨rom, readable, hk⟩

end Sys2Proof.Machine
end

section
/-! SUPPORT. The encoder and the decoder as inverses (30_encoding.md R65, R66, R68): the words of the instructions that remain,
the words without an executing instruction (R67), and the obligations on the encoding. -/

namespace Sys2Proof.Machine

/-! ### The words of the instructions that remain -/

section Word

variable {x y : RegIx} {n : Nibble} {nnn : Addr12}

theorem isWordOf_cls : isWordOf 0x00E0 .cls := isWordOf_of_decodeWord rfl

/-- A word `0NNN` is the one its address field says, so it is CLS or RET only where that field is (90_conflicts.md C8). -/
theorem wordNNN_zero_ne {a : Addr12} (h : nnn ≠ a) : wordNNN 0x0 nnn ≠ wordNNN 0x0 a := fun e =>
  h (by rw [← fieldNNN_wordNNN 0x0 nnn, e, fieldNNN_wordNNN])

/-- Every `0NNN` but CLS and RET is the word of SYS (42_control_flow.md R99). -/
theorem isWordOf_sys (hcls : nnn ≠ 0x0E0#12) (hret : nnn ≠ 0x0EE#12) : isWordOf (opNNN 0x0000 nnn) (.sys nnn) := by
  refine isWordOf_opNNN (f := 0x0) ?_
  have hdecode : decodeWord (wordNNN 0x0 nnn) = .ok (decode0 (wordNNN 0x0 nnn)) := by simp [decodeWord]
  have h0 : decode0 (wordNNN 0x0 nnn) = .sys (fieldNNN (wordNNN 0x0 nnn)) :=
    (if_neg (wordNNN_zero_ne hcls)).trans (if_neg (wordNNN_zero_ne hret))
  rw [hdecode, h0, fieldNNN_wordNNN]

theorem isWordOf_rnd (x : RegIx) (nn : Byte) : isWordOf (opXNN 0xC000 x nn) (.rnd x nn) :=
  isWordOf_opXNN (f := 0xC) (by simp [decodeWord])

/-- `DXYN` with a height is the word of DRW. -/
theorem isWordOf_drw (hn : n ≠ 0#4) : isWordOf (opXY 0xD000 x y ||| n.setWidth 16) (.drw x y n) :=
  isWordOf_of_decodeWord (decodeWord_opXY_or (f := 0xD) (by simp [decodeWord, hn]))

theorem isWordOf_skp (x : RegIx) : isWordOf (opX 0xE09E x) (.skp x) :=
  isWordOf_opX (f := 0xE) (nn := 0x9E) x (by simp [decodeWord, decodeE])

theorem isWordOf_sknp (x : RegIx) : isWordOf (opX 0xE0A1 x) (.sknp x) :=
  isWordOf_opX (f := 0xE) (nn := 0xA1) x (by simp [decodeWord, decodeE])

theorem isWordOf_ldVxK (x : RegIx) : isWordOf (opX 0xF00A x) (.ldVxK x) :=
  isWordOf_opX (f := 0xF) (nn := 0x0A) x (by simp [decodeWord, decodeF])

/-- A sprite of no rows has no word: `DXY0` is illegal (30_encoding.md R67). -/
theorem decodeWord_DXY0 (x y : RegIx) : decodeWord (wordXYN 0xD x y 0x0) = .error .zeroHeight := by
  simp [decodeWord]

end Word

/-! ### Decode of encode -/

/-- An instruction with a word of its own is decoded back from it. -/
theorem isWordOf.decodes {op : Word} {i : Instr} (h : isWordOf op i) : decodeWord (encode i) = .ok i :=
  h.1 ▸ h.2

theorem wellFormed_sys_iff {nnn : Addr12} :
    (Instr.sys nnn).wellFormed = true ↔ nnn ≠ 0x0E0#12 ∧ nnn ≠ 0x0EE#12 := by
  simp [Instr.wellFormed]

theorem wellFormed_drw_iff {x y : RegIx} {n : Nibble} : (Instr.drw x y n).wellFormed = true ↔ n ≠ 0#4 := by
  simp [Instr.wellFormed]

/-- Settles O1: each instruction by its own word; SYS and DRW need their condition, the others none. -/
theorem encodedInstructionsDecodeBack : Obligations.EncodedInstructionsDecodeBack := by
  intro i hi
  cases i with
  | cls => exact isWordOf_cls.decodes
  | ret => exact isWordOf_ret.decodes
  | sys nnn =>
    obtain ⟨hcls, hret⟩ := wellFormed_sys_iff.1 hi
    exact (isWordOf_sys hcls hret).decodes
  | jp nnn => exact (isWordOf_jp nnn).decodes
  | call nnn => exact (isWordOf_call nnn).decodes
  | seVxNn x nn => exact (isWordOf_seVxNn x nn).decodes
  | sneVxNn x nn => exact (isWordOf_sneVxNn x nn).decodes
  | seVxVy x y => exact (isWordOf_seVxVy x y).decodes
  | ldVxNn x nn => exact (isWordOf_ldVxNn x nn).decodes
  | addVxNn x nn => exact (isWordOf_addVxNn x nn).decodes
  | ldVxVy x y => exact (isWordOf_ldVxVy x y).decodes
  | orVxVy x y => exact (isWordOf_orVxVy x y).decodes
  | andVxVy x y => exact (isWordOf_andVxVy x y).decodes
  | xorVxVy x y => exact (isWordOf_xorVxVy x y).decodes
  | addVxVy x y => exact (isWordOf_addVxVy x y).decodes
  | sub x y => exact (isWordOf_sub x y).decodes
  | shr x y => exact (isWordOf_shr x y).decodes
  | subn x y => exact (isWordOf_subn x y).decodes
  | shl x y => exact (isWordOf_shl x y).decodes
  | sneVxVy x y => exact (isWordOf_sneVxVy x y).decodes
  | ldINnn nnn => exact (isWordOf_ldINnn nnn).decodes
  | jpV0 nnn => exact (isWordOf_jpV0 nnn).decodes
  | rnd x nn => exact (isWordOf_rnd x nn).decodes
  | drw x y n => exact (isWordOf_drw (wellFormed_drw_iff.1 hi)).decodes
  | skp x => exact (isWordOf_skp x).decodes
  | sknp x => exact (isWordOf_sknp x).decodes
  | ldVxDt x => exact (isWordOf_ldVxDt x).decodes
  | ldVxK x => exact (isWordOf_ldVxK x).decodes
  | ldDtVx x => exact (isWordOf_ldDtVx x).decodes
  | ldStVx x => exact (isWordOf_ldStVx x).decodes
  | addIVx x => exact (isWordOf_addIVx x).decodes
  | ldFVx x => exact (isWordOf_ldFVx x).decodes
  | ldBVx x => exact (isWordOf_ldBVx x).decodes
  | ldMemVx x => exact (isWordOf_ldMemVx x).decodes
  | ldVxMem x => exact (isWordOf_ldVxMem x).decodes

/-! ### Encode of decode -/

/-- Only well-formed instructions are decoded: the word of an ill-formed one decodes to something else, or to nothing. -/
theorem wellFormed_of_decodeWord {op : Word} {i : Instr} (h : decodeWord op = .ok i) : i.wellFormed = true := by
  have henc := encode_of_decodeWord h
  cases i with
  | sys nnn =>
    refine wellFormed_sys_iff.2 ⟨?_, ?_⟩ <;> rintro rfl
    · cases (show op = 0x00E0 from henc.symm); exact absurd h (by decide)
    · cases (show op = 0x00EE from henc.symm); exact absurd h (by decide)
  | drw x y n =>
    refine wellFormed_drw_iff.2 ?_
    rintro rfl
    subst henc
    exact absurd ((decodeWord_DXY0 x y).symm.trans h) (by simp)
  | _ => rfl

/-- Settles O2: the encoder takes every decoded instruction back to its word, and none is ill formed. -/
theorem decodedWordsEncodeBack : Obligations.DecodedWordsEncodeBack := fun _ _ h =>
  ⟨encode_of_decodeWord h, wellFormed_of_decodeWord h⟩

/-- Settles O4: the twelve words are evaluated. -/
theorem wordsOfTheTestVectorsDecode : Obligations.WordsOfTheTestVectorsDecode := by
  unfold Obligations.WordsOfTheTestVectorsDecode; decide

/-! ### The words without an executing instruction (30_encoding.md R67) -/

/-- What the decoder answers for a word that has no executing instruction: a rejection, or SYS. -/
def lacksInstruction (r : Except DecodeReject Instr) : Prop := (∃ e, r = .error e) ∨ ∃ nnn, r = .ok (.sys nnn)

@[simp] theorem lacksInstruction_error (e : DecodeReject) : lacksInstruction (.error e) := .inl ⟨e, rfl⟩

@[simp] theorem lacksInstruction_ok (i : Instr) : lacksInstruction (.ok i) ↔ ∃ nnn, i = .sys nnn := by
  simp [lacksInstruction]

section Lacks

variable (op : Word)

@[simp] theorem decode0_eq_sys_iff : (∃ nnn, decode0 op = .sys nnn) ↔ op ≠ 0x00E0 ∧ op ≠ 0x00EE := by
  unfold decode0
  split
  case isTrue h => simp [h]
  case isFalse hcls =>
    split
    case isTrue h => simp [h]
    case isFalse hret => simp [hcls, hret]

theorem fieldN_eq_zero_iff : fieldN op = 0#4 ↔ op.toNat % 16 = 0 := by
  rw [← toNat_fieldN, BitVec.toNat_eq]; rfl

@[simp] theorem lacksInstruction_decode8 :
    lacksInstruction (decode8 op) ↔ op.toNat % 16 ∈ [0x8, 0x9, 0xA, 0xB, 0xC, 0xD, 0xF] := by
  rw [← toNat_fieldN, decode8]
  split
  case h_10 =>
    have hmem : (fieldN op).toNat ∈ [0x8, 0x9, 0xA, 0xB, 0xC, 0xD, 0xF] := by
      simp only [imp_false, List.mem_cons, List.not_mem_nil, or_false] at *
      bv_omega
    exact iff_of_true (lacksInstruction_error _) hmem
  all_goals
    rename_i hn
    simp [hn]

@[simp] theorem lacksInstruction_decodeE : lacksInstruction (decodeE op) ↔ op.toNat % 256 ∉ [0x9E, 0xA1] := by
  rw [← toNat_fieldNN, decodeE]
  split
  case h_3 =>
    have hmem : (fieldNN op).toNat ∉ [0x9E, 0xA1] := by
      simp only [imp_false, List.mem_cons, List.not_mem_nil, or_false] at *
      bv_omega
    exact iff_of_true (lacksInstruction_error _) hmem
  all_goals
    rename_i hnn
    simp [hnn]

@[simp] theorem lacksInstruction_decodeF : lacksInstruction (decodeF op) ↔
    op.toNat % 256 ∉ [0x07, 0x0A, 0x15, 0x18, 0x1E, 0x29, 0x33, 0x55, 0x65] := by
  rw [← toNat_fieldNN, decodeF]
  split
  case h_10 =>
    have hmem : (fieldNN op).toNat ∉ [0x07, 0x0A, 0x15, 0x18, 0x1E, 0x29, 0x33, 0x55, 0x65] := by
      simp only [imp_false, List.mem_cons, List.not_mem_nil, or_false] at *
      bv_omega
    exact iff_of_true (lacksInstruction_error _) hmem
  all_goals
    rename_i hnn
    simp [hnn]

end Lacks

/-- Settles O3: family by family. Where a family has selectors, the lemma on its decoder says which are left out; where it has
none, both sides are false. -/
theorem illegalWordsByFamily : Obligations.IllegalWordsByFamily := by
  intro op
  have hn := fieldN_eq_zero_iff op
  show lacksInstruction (decodeWord op) ↔ _
  dsimp only
  rw [← toNat_fieldF, decodeWord]
  split <;> rename_i hf
  case h_6 | h_10 | h_14 => simp only [hf, hn]; split <;> simp [*]
  case h_16 =>
    -- The other fifteen families are excluded by the hypotheses that the earlier cases leave.
    have hF : fieldF op = 0xF := by simp only [imp_false] at *; bv_omega
    simp [hF]
  all_goals simp [hf]

end Sys2Proof.Machine
end

section
/-! SUPPORT. One step of the machine (40_execution_cycle.md R72..R74): what a Cycle does by the run state and the word fetched,
what each instruction writes, what a step can do said once for every kind of step, and the obligations on single steps. -/

namespace Sys2Proof.Machine

/-! ### A Cycle, by the run state and the word fetched -/

section Cycle

variable {s : State}

theorem step_of_runsNext (h : runsNext s) : step s = runningCycle s.dequeued := by
  obtain ⟨hk, hrun⟩ := h
  have hrun : s.dequeued.run = .running := hrun
  rw [step_of_nextKind hk, perform, cycle, hrun]

theorem runningCycle_of_not_allowed (hf : ¬fetchAllowed s.pc) :
    runningCycle s = .next (takeFault none { code := .pcOutOfRange, info := .pcValue s.pc } s) := by
  rw [runningCycle, fetchWord_of_not_allowed hf]

theorem runningCycle_of_illegal {e : DecodeReject} (hf : fetchAllowed s.pc)
    (he : decodeWord (wordAt s.mem s.pc) = .error e) :
    runningCycle s = .next (takeFault (some (wordAt s.mem s.pc)) decodeTrap s) := by
  simp only [runningCycle, fetchWord_eq_ok_iff.2 ⟨hf, rfl⟩, he]

theorem runningCycle_of_decodes {i : Instr} (hf : fetchAllowed s.pc) (hi : decodeWord (wordAt s.mem s.pc) = .ok i) :
    runningCycle s = exec i s := by
  simp only [runningCycle, fetchWord_eq_ok_iff.2 ⟨hf, rfl⟩, hi]

end Cycle

/-- Settles O5: the fetch answers the word and the decoder the instruction. -/
theorem stepRunsDecodedInstruction : Obligations.StepRunsDecodedInstruction := fun s _ hnext hf hi =>
  (step_of_runsNext hnext).trans (runningCycle_of_decodes (s := s.dequeued) hf hi)

/-- Settles O7: the two faults of a cycle before its instruction is executed. -/
theorem cycleTakesFetchAndDecodeFaults : Obligations.CycleTakesFetchAndDecodeFaults := by
  intro s hnext
  rw [step_of_runsNext hnext]
  constructor
  case left => exact fun hf => runningCycle_of_not_allowed (s := s.dequeued) hf
  case right => exact fun e hf he => runningCycle_of_illegal (s := s.dequeued) hf he

/-- Settles O45: a Cycle asks for the run state first, and a Tick or a Shutdown of an inactive machine does nothing. -/
theorem noCycleUnlessRunningOrWaiting : Obligations.NoCycleUnlessRunningOrWaiting := by
  intro s
  have hcycle (hk : nextKind s = .cycle) : step s = cycle s.dequeued := step_of_nextKind hk
  refine ⟨fun hk hrun => ?unloaded, fun r hk hrun => ?faulted, fun hk hrun => ?stopped, fun hk hrun => ?inactive⟩
  case unloaded | faulted | stopped => rw [hcycle hk, cycle, State.dequeued_run, hrun]
  case inactive =>
    have hna : ¬s.dequeued.active := not_active_iff.2 hrun
    rcases hk with hk | hk
    · rw [step_of_nextKind hk, perform, tick_of_not_active hna]
    · rw [step_of_nextKind hk, perform, shutdown_of_not_active hna]

/-- Every arm of `exec` is the end of an instruction, which is never a stop and never a refusal. -/
theorem exec_eq_conclude (i : Instr) (s : State) : ∃ r, exec i s = conclude i s r := by
  cases i
  case cls | jp | ldVxNn | ldINnn | rnd | ldVxDt | ldVxK => exact ⟨.ok _, rfl⟩
  case sys => exact ⟨.error _, rfl⟩
  all_goals exact ⟨_, rfl⟩

/-- Settles O46: whatever its pseudocode reached, an instruction ends in a next state. -/
theorem everyInstructionHasAnEffect : Obligations.EveryInstructionHasAnEffect := by
  intro i s
  obtain ⟨r, hr⟩ := exec_eq_conclude i s
  exact ⟨_, hr⟩

/-! ### What a completed instruction writes -/

/-- The parts of the state that an instruction may write, by its rule. -/
def writtenParts : Instr → List Part
  | .sys _ => []
  | .jp _ | .jpV0 _ | .seVxNn _ _ | .sneVxNn _ _ | .seVxVy _ _ | .sneVxVy _ _ => [.pc]
  | .ret | .call _ => [.stack, .pc]
  | .ldVxNn _ _ | .addVxNn _ _ | .ldVxVy _ _ | .orVxVy _ _ | .andVxVy _ _ | .xorVxVy _ _ | .addVxVy _ _ | .sub _ _
  | .shr _ _ | .subn _ _ | .shl _ _ | .ldVxDt _ | .ldVxMem _ => [.regs, .pc]
  | .rnd _ _ => [.env, .regs, .pc]
  | .skp _ | .sknp _ => [.env, .pc]
  | .cls => [.fb, .dirty, .pc]
  | .drw _ _ _ => [.fb, .regs, .dirty, .pc]
  | .ldINnn _ | .addIVx _ | .ldFVx _ => [.i, .pc]
  | .ldBVx _ | .ldMemVx _ => [.mem, .pc]
  | .ldDtVx _ => [.dt, .pc]
  | .ldStVx _ => [.st, .pc]
  | .ldVxK _ => [.run]

section Completed

variable {s t : State} {i : Instr}

/-- A completed instruction leaves every part but those its rule writes. -/
theorem Completes.frame (h : Completes s t i) : unchangedBut (writtenParts i) s t := by
  have hsetV (s : State) (x : RegIx) (b : Byte) : unchangedBut [.regs, .pc] s (s.setV x b).advance :=
    unchangedBut_trans (unchangedBut_setV s x b) (unchangedBut_advance _)
  have hflag (x : RegIx) (b c : Byte) : unchangedBut [.regs, .pc] s (s.setResultAndFlag x b c).advance :=
    unchangedBut_trans (unchangedBut_setResultAndFlag s x b c) (unchangedBut_advance _)
  have hsetI (a : Word) : unchangedBut [.i, .pc] s (s.setI a).advance :=
    unchangedBut_trans (unchangedBut_setI s a) (unchangedBut_advance _)
  cases i
  case sys => exact h.elim
  case jp => exact h ▸ unchangedBut_setPc s _
  case jpV0 => obtain ⟨a, -, rfl⟩ := h; exact unchangedBut_setPc s _
  case seVxNn | sneVxNn => obtain ⟨a, -, rfl⟩ := h; exact unchangedBut_skipIf s _
  case seVxVy | sneVxVy => obtain ⟨a, b, -, -, rfl⟩ := h; exact unchangedBut_skipIf s _
  case ret => obtain ⟨a, -, rfl⟩ := h; exact unchangedBut_setStack_setPc s _ _
  case call => obtain ⟨-, rfl⟩ := h; exact unchangedBut_setStack_setPc s _ _
  case ldVxNn | ldVxDt => exact h ▸ hsetV s _ _
  case addVxNn | ldVxVy => obtain ⟨a, -, rfl⟩ := h; exact hsetV s _ _
  case orVxVy | andVxVy | xorVxVy => obtain ⟨a, b, -, -, rfl⟩ := h; exact hsetV s _ _
  case shr | shl => obtain ⟨a, -, rfl⟩ := h; exact hflag _ _ _
  case addVxVy | sub | subn => obtain ⟨a, b, -, -, rfl⟩ := h; exact hflag _ _ _
  case ldVxMem =>
    obtain ⟨base, bs, -, -, rfl⟩ := h
    exact unchangedBut_trans (unchangedBut_setVs s 0 bs) (unchangedBut_advance _)
  case rnd => obtain ⟨r, e, -, rfl⟩ := h; exact unchangedBut_trans (unchangedBut_setEnv s e) (hsetV _ _ _)
  case skp | sknp =>
    obtain ⟨b, k, p, e, -, -, -, rfl⟩ := h
    exact unchangedBut_trans (unchangedBut_setEnv s e) (unchangedBut_skipIf _ _)
  case cls =>
    exact h ▸ unchangedBut_trans (unchangedBut_trans (unchangedBut_setFb _ _) (unchangedBut_setDirty _ _))
      (unchangedBut_advance _)
  case drw => obtain ⟨a, b, base, rows, -, -, -, -, -, rfl⟩ := h; exact unchangedBut_afterDrawing s _
  case ldINnn => exact h ▸ hsetI _
  case addIVx => obtain ⟨a, v, -, -, rfl⟩ := h; exact hsetI _
  case ldFVx => obtain ⟨v, -, rfl⟩ := h; exact hsetI _
  case ldBVx => obtain ⟨v, base, m, -, -, -, rfl⟩ := h; exact unchangedBut_setMem_advance s m
  case ldMemVx => obtain ⟨base, vs, m, -, -, -, rfl⟩ := h; exact unchangedBut_setMem_advance s m
  case ldDtVx => obtain ⟨b, -, rfl⟩ := h; exact unchangedBut_trans (unchangedBut_setDt s b) (unchangedBut_advance _)
  case ldStVx => obtain ⟨b, -, rfl⟩ := h; exact unchangedBut_trans (unchangedBut_setSt s b) (unchangedBut_advance _)
  case ldVxK => exact h ▸ unchangedBut_setRun s _

/-- A part that an instruction does not write is the same in the next state. -/
theorem Completes.same_or_written (p : Part) (h : Completes s t i) : p.same s t ∨ p ∈ writtenParts i :=
  (Classical.em (p ∈ writtenParts i)).symm.imp_left (h.frame p)

theorem params_not_mem_writtenParts : .params ∉ writtenParts i := by
  cases i <;> simp [writtenParts]

theorem Completes.params (h : Completes s t i) : t.params = s.params := h.frame .params params_not_mem_writtenParts

/-- CLS and DRW, the instructions of the display (10_state.md R33). -/
def drawsPixels (i : Instr) : Prop := i = .cls ∨ ∃ x y n, i = .drw x y n

theorem fb_mem_writtenParts : .fb ∈ writtenParts i ↔ drawsPixels i := by
  cases i <;> simp [writtenParts, drawsPixels]

theorem dirty_mem_writtenParts : .dirty ∈ writtenParts i ↔ drawsPixels i := by
  cases i <;> simp [writtenParts, drawsPixels]

theorem dt_mem_writtenParts : .dt ∈ writtenParts i ↔ ∃ x, i = .ldDtVx x := by
  cases i <;> simp [writtenParts]

theorem st_mem_writtenParts : .st ∈ writtenParts i ↔ ∃ x, i = .ldStVx x := by
  cases i <;> simp [writtenParts]

/-- No instruction clears `dirty` (10_state.md R34). -/
theorem Completes.dirty_of_dirty (h : Completes s t i) (hs : s.dirty = true) : t.dirty = true := by
  obtain hsame | hw := h.same_or_written .dirty
  · exact Eq.trans hsame hs
  obtain rfl | ⟨x, y, n, rfl⟩ := dirty_mem_writtenParts.1 hw
  · exact h ▸ rfl
  · obtain ⟨a, b, base, rows, -, -, -, -, -, rfl⟩ := h
    rw [State.afterDrawing_dirty, hs, Bool.true_or]

end Completed

/-! ### What a step does -/

@[simp] theorem State.getV_dequeued (s : State) (r : RegIx) : s.dequeued.getV r = s.getV r := rfl
@[simp] theorem State.dequeued_i (s : State) : s.dequeued.i = s.i := rfl
@[simp] theorem State.dequeued_stack (s : State) : s.dequeued.stack = s.stack := rfl
@[simp] theorem State.dequeued_dt (s : State) : s.dequeued.dt = s.dt := rfl
@[simp] theorem State.dequeued_st (s : State) : s.dequeued.st = s.st := rfl
@[simp] theorem State.dequeued_fb (s : State) : s.dequeued.fb = s.fb := rfl
@[simp] theorem State.dequeued_dirty (s : State) : s.dequeued.dirty = s.dirty := rfl
@[simp] theorem State.dequeued_params (s : State) : s.dequeued.params = s.params := rfl

/-- A fault `e` of the Cycle in `s`, with the word `op` its record holds: the fetch's own, or one raised after the fetch. -/
inductive CycleFault (s : State) : Option Word → Trap → Prop where
  | fetch (hf : ¬fetchAllowed s.pc) : CycleFault s none { code := .pcOutOfRange, info := .pcValue s.pc }
  | executed {e : Trap} (hf : fetchAllowed s.pc) (he : RaisedBy s e) : CycleFault s (some (wordAt s.mem s.pc)) e

/-- What a step from `s` to `t` did (40_execution_cycle.md R72). `env` is what the step leaves of the environment's side. -/
inductive StepEffect (s t : State) : Prop where
  /-- A Cycle executed the instruction fetched. -/
  | completed {i : Instr} (hnext : runsNext s) (hf : fetchAllowed s.pc)
      (hi : decodeWord (wordAt s.mem s.pc) = .ok i) (h : Completes s.dequeued t i)
  /-- A Cycle took a fault. -/
  | faulted {op : Option Word} {e : Trap} (hnext : runsNext s) (he : CycleFault s op e)
      (h : t = takeFault op e s.dequeued)
  /-- A poll of the key wait answered a key. -/
  | keyed {x : RegIx} {b : Byte} {env : Env} (hrun : s.run = .waitKey x)
      (h : t = (((s.setEnv env).setV x b).advance).setRun .running)
  /-- A Tick counted the timers down. -/
  | ticked {env : Env} (h : t = ((s.setEnv env).setDt (countDown s.dt)).setSt (countDown s.st))
  /-- A Present handed the frame over. -/
  | presented {env : Env} (hk : nextKind s = .present) (h : t = (s.setEnv env).setDirty false)
  /-- A Shutdown stopped the run. -/
  | stopped {env : Env} (hs : s.active) (h : t = (s.setEnv env).setRun .stopped)
  /-- A Load reset the core. -/
  | loaded {rom : List Byte} {env : Env} (hfits : rom.length ≤ 3248) (h : t = load rom true (s.setEnv env))
  /-- A poll without a key, a Tick or a Shutdown of an inactive machine, or a Load that was refused. -/
  | idle {env : Env} (h : t = s.setEnv env)

section Effect

variable {s t : State}

/-- All a Cycle of a running machine can do: complete the instruction fetched, or take one fault. -/
theorem runningCycle_effect (h : runningCycle s = .next t) :
    (fetchAllowed s.pc ∧ ∃ i, decodeWord (wordAt s.mem s.pc) = .ok i ∧ Completes s t i) ∨
      ∃ op e, CycleFault s op e ∧ t = takeFault op e s := by
  rcases runningCycle_cases h with ⟨hf, rfl⟩ | ⟨hf, -, rfl⟩ | ⟨hf, i, hi, hx⟩
  · exact .inr ⟨_, _, .fetch hf, rfl⟩
  · exact .inr ⟨_, _, .executed hf (raisedBy_decodeTrap s), rfl⟩
  rcases exec_cases hx with hc | ⟨e, he, rfl⟩
  · exact .inl ⟨hf, i, hi, hc⟩
  · rw [encode_of_decodeWord hi]
    exact .inr ⟨_, _, .executed hf he, rfl⟩

/-- All a poll of the key wait can do: go on waiting, or put the key in the register and run on (40_execution_cycle.md R81). -/
theorem waitCycle_cases (x : RegIx) (s : State) : (∃ env, waitCycle x s = s.setEnv env) ∨
    ∃ env b, waitCycle x s = (((s.setEnv env).setV x b).advance).setRun .running := by
  obtain ⟨env, henv⟩ := askPollKey_snd s
  unfold waitCycle
  simp only [henv]
  split
  · exact .inl ⟨env, rfl⟩
  · exact .inr ⟨env, _, rfl⟩

/-- All a Load can do: reset the core, or report the ROM to the host (70_reset_and_hazards.md R147). -/
theorem load_cases (rom : List Byte) (readable : Bool) (s : State) :
    (rom.length ≤ 3248 ∧ load rom readable s = load rom true s) ∨ ∃ env, load rom readable s = s.setEnv env := by
  by_cases h : readable = false ∨ 3248 < rom.length
  · exact .inr ⟨_, load_of_error h⟩
  · obtain ⟨hr, hlen⟩ := not_or.1 h
    rw [Bool.not_eq_false] at hr
    exact .inl ⟨Nat.le_of_not_lt hlen, hr ▸ rfl⟩

/-- Every step has one of the effects above. -/
theorem step_effect (h : step s = .next t) : StepEffect s t := by
  rcases step_cases h with
    ⟨hk, hrun, hc⟩ | ⟨-, x, hrun, rfl⟩ | ⟨-, rfl⟩ | ⟨hk, rfl⟩ | ⟨-, rfl⟩ | ⟨rom, readable, -, rfl⟩
  case inl =>
    rcases runningCycle_effect hc with ⟨hf, i, hi, hdone⟩ | ⟨op, e, he, rfl⟩
    · exact .completed ⟨hk, hrun⟩ hf hi hdone
    · refine .faulted ⟨hk, hrun⟩ ?_ rfl
      cases he with
      | fetch hf => exact .fetch hf
      | executed hf he => exact .executed hf he
  · rcases waitCycle_cases x s.dequeued with ⟨env, h⟩ | ⟨env, b, h⟩
    · exact .idle h
    · exact .keyed hrun h
  · by_cases ha : s.dequeued.active
    · exact .ticked (tick_of_active ha)
    · exact .idle (tick_of_not_active ha)
  · exact .presented hk rfl
  · by_cases ha : s.dequeued.active
    · exact .stopped ha (shutdown_of_active ha)
    · exact .idle (shutdown_of_not_active ha)
  · rcases load_cases rom readable s.dequeued with ⟨hfits, h⟩ | ⟨env, h⟩
    · exact .loaded hfits h
    · exact .idle h

end Effect

end Sys2Proof.Machine
end

section
/-! SUPPORT. Which steps change the framebuffer, `dirty` and the timers (10_state.md R30, R33, R34; 70_reset_and_hazards.md
R154), and the obligations on them. -/

namespace Sys2Proof.Machine

@[simp] theorem load_fb (rom : List Byte) (readable : Bool) (s : State) : (load rom readable s).fb = s.fb := by
  unfold load; split <;> rfl

@[simp] theorem load_dirty (rom : List Byte) (readable : Bool) (s : State) :
    (load rom readable s).dirty = s.dirty := by
  unfold load; split <;> rfl

/-- The step is a Cycle that fetched an instruction with the property. -/
def fetches (s : State) (P : Instr → Prop) : Prop :=
  runsNext s ∧ ∃ i, decodeWord (wordAt s.mem s.pc) = .ok i ∧ P i

section Effect

variable {s t : State}

/-- A step leaves the framebuffer alone or fetched CLS or DRW. -/
theorem StepEffect.fb (h : StepEffect s t) : t.fb = s.fb ∨ fetches s drawsPixels := by
  cases h
  case completed i hnext hf hi hc =>
    exact (hc.same_or_written .fb).imp_right fun hw => ⟨hnext, i, hi, fb_mem_writtenParts.1 hw⟩
  all_goals
    subst t
    exact .inl (by simp)

/-- A step that does not leave `dirty` alone is a Present, which clears it, or fetched CLS or DRW, which set it. -/
theorem StepEffect.dirty (h : StepEffect s t) :
    t.dirty = s.dirty ∨ (nextKind s = .present ∧ t.dirty = false) ∨
      ((s.dirty = true → t.dirty = true) ∧ fetches s drawsPixels) := by
  cases h
  case completed i hnext hf hi hc =>
    exact (hc.same_or_written .dirty).imp_right fun hw =>
      .inr ⟨hc.dirty_of_dirty, hnext, i, hi, dirty_mem_writtenParts.1 hw⟩
  case presented env hk h => exact .inr (.inl ⟨hk, h ▸ rfl⟩)
  all_goals
    subst t
    exact .inl (by simp)

/-- A step raises the delay timer only if it fetched FX15. -/
theorem StepEffect.dt (h : StepEffect s t) :
    t.dt.toNat ≤ s.dt.toNat ∨ fetches s fun i => ∃ x, i = .ldDtVx x := by
  cases h
  case completed i hnext hf hi hc =>
    exact (hc.same_or_written .dt).imp (fun hsame => (congrArg BitVec.toNat hsame).le)
      fun hw => ⟨hnext, i, hi, dt_mem_writtenParts.1 hw⟩
  case ticked env h => exact .inl (by simp [h, toNat_countDown])
  case loaded rom env hfits h => exact .inl (by simp [h, load_of_fits hfits])
  all_goals
    subst t
    exact .inl (by simp)

/-- A step raises the sound timer only if it fetched FX18. -/
theorem StepEffect.st (h : StepEffect s t) :
    t.st.toNat ≤ s.st.toNat ∨ fetches s fun i => ∃ x, i = .ldStVx x := by
  cases h
  case completed i hnext hf hi hc =>
    exact (hc.same_or_written .st).imp (fun hsame => (congrArg BitVec.toNat hsame).le)
      fun hw => ⟨hnext, i, hi, st_mem_writtenParts.1 hw⟩
  case ticked env h => exact .inl (by simp [h, toNat_countDown])
  case loaded rom env hfits h => exact .inl (by simp [h, load_of_fits hfits])
  all_goals
    subst t
    exact .inl (by simp)

end Effect

/-- Settles O49: a step that does not leave the framebuffer alone fetched CLS or DRW. -/
theorem onlyDisplayInstructionsChangePixels : Obligations.OnlyDisplayInstructionsChangePixels :=
  fun _ _ h hne => (step_effect h).fb.resolve_left hne

/-- Settles O50: of the steps that do not leave `dirty` alone, a Present clears it and the display's instructions do not. -/
theorem dirtyIsClearedByPresentOnly : Obligations.DirtyIsClearedByPresentOnly := by
  intro s t h
  rcases (step_effect h).dirty with hsame | ⟨hk, hclear⟩ | ⟨hkeep, hfetch⟩
  · rw [hsame]
    exact ⟨fun hs hs' => absurd (hs.symm.trans hs') nofun, fun hs hs' => absurd (hs.symm.trans hs') nofun⟩
  · exact ⟨fun _ _ => hk, fun _ ht => absurd (hclear.symm.trans ht) nofun⟩
  · exact ⟨fun hs ht => absurd ((hkeep hs).symm.trans ht) nofun, fun _ _ => hfetch⟩

/-- Settles O51: a timer that rises was not left or counted down, so FX15 or FX18 was fetched. -/
theorem timersNeverIncreaseBetweenWrites : Obligations.TimersNeverIncreaseBetweenWrites := by
  intro s t h
  constructor
  case left =>
    intro hlt
    obtain ⟨hnext, _, hi, x, rfl⟩ := (step_effect h).dt.resolve_left hlt.not_ge
    exact ⟨hnext, x, hi⟩
  case right =>
    intro hlt
    obtain ⟨hnext, _, hi, x, rfl⟩ := (step_effect h).st.resolve_left hlt.not_ge
    exact ⟨hnext, x, hi⟩

end Sys2Proof.Machine
end

section
/-! SUPPORT. The invariant of the machine (10_state.md R28, R36; 20_memory.md R45, R47, R49; 40_execution_cycle.md R80, R81;
60_exceptions.md R128), part by part and step by step, and the obligations on it. -/

namespace Sys2Proof.Machine

/-! ### Memory -/

section Memory

variable {s t : State}

theorem memoryInv_of_mem_eq (h : t.mem = s.mem) (hs : memoryInv s) : memoryInv t := by
  rwa [memoryInv, h]

/-- A block write keeps memory canonical, and adds cells at accessible addresses only. -/
theorem memoryInv_of_writeBytes {base : Nat} {bs : List Byte} (h : writeBytes s.mem base bs = .ok t.mem)
    (hs : memoryInv s) : memoryInv t := by
  obtain ⟨hwf, hacc⟩ := hs
  obtain ⟨-, hwf', -⟩ := writeBytes_spec bs _ _ base hwf h
  exact ⟨hwf', fun c hc => (mem_of_writeBytes bs _ _ base h c hc).elim (hacc c) id⟩

/-- Load writes inside the font area and the program region (70_reset_and_hazards.md R147). -/
theorem memoryInv_load {rom : List Byte} (hfits : rom.length ≤ 3248) (s : State) : memoryInv (load rom true s) := by
  rw [load_of_fits hfits]
  refine ⟨loadedMemory_wf s.params rom hfits, fun c hc => ?_⟩
  rcases Memory.mem_putAll rom 512 _ c hc with hc | hrom
  · rcases Memory.mem_putAll _ 0 [] c hc with hc | hfont
    · cases hc
    · rw [Vector.length_toList] at hfont; omega
  · omega

theorem Completes.memoryInv {i : Instr} (h : Completes s t i) (hs : memoryInv s) : memoryInv t := by
  rcases h.mem with heq | ⟨base, bs, hw⟩
  · exact memoryInv_of_mem_eq heq hs
  · exact memoryInv_of_writeBytes hw hs

theorem StepEffect.memoryInv (h : StepEffect s t) (hs : memoryInv s) : memoryInv t := by
  cases h
  case completed i hnext hf hi hc => exact hc.memoryInv (memoryInv_of_mem_eq rfl hs)
  case loaded rom env hfits h => exact h ▸ memoryInv_load hfits _
  all_goals
    subst t
    exact memoryInv_of_mem_eq rfl hs

end Memory

/-- Settles O53: a block write of an instruction and Load's copies are all that changes memory. -/
theorem stepKeepsMemoryCanonical : Obligations.StepKeepsMemoryCanonical :=
  fun _ _ hs h => (step_effect h).memoryInv hs

/-! ### PC and the stack -/

section Control

variable {s t : State} {i : Instr}

/-- Where a fetch is allowed, PC + 2 does not wrap (40_execution_cycle.md R80). -/
theorem toNat_add_two (hf : fetchAllowed s.pc) : (s.pc + 2).toNat = s.pc.toNat + 2 := by
  unfold fetchAllowed at hf; bv_omega

/-- Where a fetch is allowed, PC + 4 does not wrap (40_execution_cycle.md R80). -/
theorem toNat_add_four (hf : fetchAllowed s.pc) : (s.pc + 4).toNat = s.pc.toNat + 4 := by
  unfold fetchAllowed at hf; bv_omega

/-- Where an instruction can leave PC: where it was, after the instruction or the next one, at a return address, or at the
target of a jump. -/
inductive NextPc (s : State) : Word → Prop where
  | stays : NextPc s s.pc
  | advances : NextPc s (s.pc + 2)
  | skips : NextPc s (s.pc + 4)
  | returns {a : Word} (h : a ∈ s.stack) : NextPc s a
  | jumps {a : Word} (h : a.toNat ≤ 4350) : NextPc s a

theorem nextPc_skip (s : State) (c : Bool) : NextPc s (if c then s.pc + 4 else s.pc + 2) := by
  cases c
  · exact .advances
  · exact .skips

theorem nextPc_addrOf (s : State) (nnn : Addr12) : NextPc s (addrOf nnn) := .jumps (by rw [toNat_addrOf]; omega)

theorem Completes.nextPc (h : Completes s t i) : NextPc s t.pc := by
  cases i <;> simp only [Completes] at h
  case jp nnn => exact h ▸ nextPc_addrOf s nnn
  case call nnn => obtain ⟨-, rfl⟩ := h; exact nextPc_addrOf s nnn
  case jpV0 nnn =>
    obtain ⟨a, -, rfl⟩ := h
    refine .jumps ?_
    rw [State.setPc_pc, toNat_jpV0_target]; omega
  case ret => obtain ⟨a, ha, rfl⟩ := h; exact .returns (List.mem_of_getLast? ha)
  case seVxNn | sneVxNn => obtain ⟨a, -, rfl⟩ := h; exact nextPc_skip s _
  case seVxVy | sneVxVy => obtain ⟨a, b, -, -, rfl⟩ := h; exact nextPc_skip s _
  case skp | sknp => obtain ⟨b, k, p, e, -, -, -, rfl⟩ := h; exact nextPc_skip s _
  case ldVxK => exact h ▸ .stays
  -- Every other instruction ends with the cycle's advance (40_execution_cycle.md R79).
  all_goals repeat (first | subst h | obtain ⟨_, h⟩ := h)
  all_goals simpa using NextPc.advances

theorem NextPc.toNat_le {a : Word} (h : NextPc s a) (hf : fetchAllowed s.pc) (hs : stackInv s) : a.toNat ≤ 4350 := by
  have h2 := toNat_add_two hf
  have h4 := toNat_add_four hf
  unfold fetchAllowed at hf
  obtain ⟨-, hbounds⟩ := hs
  cases h with
  | stays | advances | skips => omega
  | returns ha =>
    obtain ⟨-, hle⟩ := hbounds a ha
    omega
  | jumps ha => exact ha

theorem stackInv_of_stack_eq (h : t.stack = s.stack) (hs : stackInv s) : stackInv t := by
  rwa [stackInv, h]

/-- Only RET and CALL change the stack: the one shortens it, the other adds the address after it while there is room. -/
theorem Completes.stackInv (h : Completes s t i) (hf : fetchAllowed s.pc) (hs : stackInv s) : stackInv t := by
  rcases h.same_or_written .stack with hsame | hw
  · exact stackInv_of_stack_eq hsame hs
  obtain ⟨hlen, hbounds⟩ := hs
  have h2 := toNat_add_two hf
  unfold fetchAllowed at hf
  cases i
  case ret =>
    obtain ⟨a, -, rfl⟩ := h
    refine ⟨?_, fun b hb => hbounds b (List.mem_of_mem_dropLast hb)⟩
    simp; omega
  case call =>
    obtain ⟨hroom, rfl⟩ := h
    refine ⟨?_, fun b hb => ?_⟩
    · simp; omega
    · obtain hb | hb := List.mem_append.1 hb
      · exact hbounds b hb
      · rw [List.mem_singleton.1 hb]; omega
  all_goals simp [writtenParts] at hw

end Control

/-! ### The key wait and the fault record -/

section RunState

variable {s t : State}

theorem waitInv_of_run_ne (h : ∀ x, s.run ≠ .waitKey x) : waitInv s := fun x hx => absurd hx (h x)

theorem recordInv_of_faultFree (h : faultFree s) : recordInv s := fun r hr => absurd hr (h r)

/-- A completed instruction that enters the key wait is the FX0A fetched, and PC stays at it. -/
theorem Completes.waitInv {i : Instr} (h : Completes s t i) (hrun : s.run = .running) (hf : fetchAllowed s.pc)
    (hi : decodeWord (wordAt s.mem s.pc) = .ok i) : waitInv t := by
  rcases h.run with hsame | ⟨x, rfl, rfl⟩
  · exact waitInv_of_run_ne fun x => by rw [hsame, hrun]; nofun
  · intro y hy
    cases hy
    exact ⟨hf, hi⟩

/-- A fault taken by a Cycle leaves a record of it. -/
theorem CycleFault.recordInv {op : Option Word} {e : Trap} (h : CycleFault s op e) :
    recordInv (takeFault op e s.dequeued) := by
  intro r hr
  cases hr
  refine ⟨rfl, ?_⟩
  cases h with
  | fetch hf => exact .inl ⟨rfl, hf, rfl, rfl⟩
  | executed hf he =>
    obtain ⟨hload, hpc, -⟩ := he
    exact .inr ⟨hpc, hload, hf, rfl⟩

/-! ### The whole invariant -/

/-- A machine that runs or waits for a key had a ROM loaded. -/
theorem run_ne_unloaded_of_active (h : s.active) : s.run ≠ .unloaded := by
  rcases h with h | ⟨x, h⟩ <;> rw [h] <;> nofun

/-- The invariant speaks of memory, the stack, PC and the run state only. -/
theorem inv_of_same (hmem : t.mem = s.mem) (hstack : t.stack = s.stack) (hpc : t.pc = s.pc) (hrun : t.run = s.run)
    (hs : s.Inv) : t.Inv := by
  unfold State.Inv memoryInv stackInv pcInv waitInv recordInv at *
  rwa [hmem, hstack, hpc, hrun]

theorem StepEffect.inv (h : StepEffect s t) (hs : s.Inv) : t.Inv := by
  cases h
  case ticked | presented | idle => subst t; exact inv_of_same rfl rfl rfl rfl hs
  case completed i hnext hf hi hc =>
    obtain ⟨-, hrun⟩ := hnext
    obtain ⟨hmem, hstack, -⟩ := hs (run_ne_unloaded_of_active (.inl hrun))
    have hfree : faultFree s.dequeued := fun r => by rw [State.dequeued_run, hrun]; nofun
    exact fun _ => ⟨hc.memoryInv hmem, hc.stackInv hf hstack, hc.nextPc.toNat_le hf hstack, hc.waitInv hrun hf hi,
      recordInv_of_faultFree (hc.faultFree hfree)⟩
  case faulted op e hnext he h =>
    obtain ⟨-, hrun⟩ := hnext
    obtain ⟨hmem, hstack, hpc, -⟩ := hs (run_ne_unloaded_of_active (.inl hrun))
    subst t
    exact fun _ => ⟨hmem, hstack, hpc, waitInv_of_run_ne nofun, he.recordInv⟩
  case keyed x b env hrun h =>
    obtain ⟨hmem, hstack, -, hwait, -⟩ := hs (run_ne_unloaded_of_active (.inr ⟨x, hrun⟩))
    obtain ⟨hf, -⟩ := hwait x hrun
    have hpc : (s.pc + 2).toNat ≤ 4350 := by
      rw [toNat_add_two hf]; unfold fetchAllowed at hf; omega
    subst t
    exact fun _ => ⟨hmem, hstack, hpc, waitInv_of_run_ne nofun, recordInv_of_faultFree nofun⟩
  case stopped env hactive h =>
    obtain ⟨hmem, hstack, hpc, -⟩ := hs (run_ne_unloaded_of_active hactive)
    subst t
    exact fun _ => ⟨hmem, hstack, hpc, waitInv_of_run_ne nofun, recordInv_of_faultFree nofun⟩
  case loaded rom env hfits h =>
    have hmem := memoryInv_load hfits (s.setEnv env)
    rw [load_of_fits hfits] at h hmem
    subst t
    exact fun _ => ⟨hmem, ⟨by simp, by simp⟩, by simp [pcInv], waitInv_of_run_ne nofun, recordInv_of_faultFree nofun⟩

end RunState

/-- Settles O54: each effect of a step keeps each part of the invariant. -/
theorem stepKeepsInvariant : Obligations.StepKeepsInvariant := fun _ _ hs h => (step_effect h).inv hs

/-- Settles O55: the reset state lists no memory and has an empty stack, and a machine at power-on is unloaded. -/
theorem resetAndPowerOnMeetInvariant : Obligations.ResetAndPowerOnMeetInvariant := by
  constructor
  case left =>
    have hpc : pcInv State.reset := by unfold pcInv; decide
    exact fun _ => ⟨⟨Memory.wf_nil, nofun⟩, ⟨by decide, nofun⟩, hpc, waitInv_of_run_ne nofun,
      recordInv_of_faultFree nofun⟩
  case right => exact fun s hs hrun => absurd hs.1 hrun

end Sys2Proof.Machine
end

section
/-! SUPPORT. Registers that always hold a value (60_exceptions.md R131), and what a Load leaves (70_reset_and_hazards.md R146,
R147), with the obligations on both. -/

namespace Sys2Proof.Machine

/-! ### Registers that hold a value -/

/-- Every general register holds a value. -/
def registersHold (s : State) : Prop := ∀ r, s.getV r ≠ .uninitialised

section Registers

variable {s t : State} {i : Instr}

/-- A register write initialises its register and leaves the others (10_state.md R22). -/
theorem registersHold_setV (hs : registersHold s) (x : RegIx) (b : Byte) : registersHold (s.setV x b) := by
  intro r
  rw [State.getV_setV]
  split
  case isTrue => nofun
  case isFalse => exact hs r

theorem registersHold_setVs (bs : List Byte) : ∀ (s : State) (k : Nat), registersHold s → registersHold (s.setVs k bs) := by
  induction bs with
  | nil => exact fun _ _ hs => hs
  | cons b bs ih => exact fun _ _ hs => ih _ _ (registersHold_setV hs _ b)

theorem registersHold_setResultAndFlag (hs : registersHold s) (x : RegIx) (b c : Byte) :
    registersHold (s.setResultAndFlag x b c) := registersHold_setV (registersHold_setV hs x b) vf c

/-- No instruction makes a register uninitialised. -/
theorem Completes.registersHold (h : Completes s t i) (hs : registersHold s) : registersHold t := by
  rcases h.same_or_written .regs with hsame | hw
  · exact fun r => (hsame r).symm ▸ hs r
  cases i
  case ldVxNn | ldVxDt => exact h ▸ registersHold_setV hs _ _
  case addVxNn | ldVxVy => obtain ⟨a, -, rfl⟩ := h; exact registersHold_setV hs _ _
  case orVxVy | andVxVy | xorVxVy => obtain ⟨a, b, -, -, rfl⟩ := h; exact registersHold_setV hs _ _
  case shr | shl => obtain ⟨a, -, rfl⟩ := h; exact registersHold_setResultAndFlag hs _ _ _
  case addVxVy | sub | subn => obtain ⟨a, b, -, -, rfl⟩ := h; exact registersHold_setResultAndFlag hs _ _ _
  case rnd => obtain ⟨r, e, -, rfl⟩ := h; exact registersHold_setV (s := s.setEnv e) hs _ _
  case drw =>
    obtain ⟨a, b, base, rows, -, -, -, -, -, rfl⟩ := h
    exact registersHold_setV (s := s.setFb _) hs vf _
  case ldVxMem => obtain ⟨base, bs, -, -, rfl⟩ := h; exact registersHold_setVs bs s 0 hs
  all_goals simp [writtenParts] at hw

/-- No instruction makes `I` uninitialised. -/
theorem Completes.indexHolds (h : Completes s t i) (hs : s.i ≠ .uninitialised) : t.i ≠ .uninitialised := by
  rcases h.same_or_written .i with hsame | hw
  · exact Eq.symm hsame ▸ hs
  cases i
  case ldINnn => rw [h]; nofun
  case addIVx => obtain ⟨a, v, -, -, rfl⟩ := h; nofun
  case ldFVx => obtain ⟨v, -, rfl⟩ := h; nofun
  all_goals simp [writtenParts] at hw

/-! ### Registers after a Load -/

theorem getV_load {rom : List Byte} (hfits : rom.length ≤ 3248) (r : RegIx) :
    (load rom true s).getV r = cellAfterLoad 8 s.params := by
  rw [load_of_fits hfits, State.getV, Vector.getElem_replicate]

theorem i_load {rom : List Byte} (hfits : rom.length ≤ 3248) : (load rom true s).i = cellAfterLoad 16 s.params := by
  rw [load_of_fits hfits]

theorem cellAfterLoad_of_zeroed {p : Params} (w : Nat) (h : p.regsZeroAtReset = true) : cellAfterLoad w p = .holds 0 :=
  if_pos h

theorem cellAfterLoad_of_not_zeroed {p : Params} (w : Nat) (h : p.regsZeroAtReset = false) :
    cellAfterLoad w p = .uninitialised := by
  rw [cellAfterLoad, h]; rfl

@[simp] theorem load_params (rom : List Byte) (readable : Bool) (s : State) :
    (load rom readable s).params = s.params := by
  unfold load; split <;> rfl

/-! ### With `REGS_ZERO_AT_RESET` true -/

/-- No step changes the parameters (00_scope.md R7). -/
theorem StepEffect.params (h : StepEffect s t) : t.params = s.params := by
  cases h
  case completed i hnext hf hi hc => exact hc.params
  all_goals
    subst t
    simp

theorem StepEffect.allInitialised (h : StepEffect s t) (hs : allInitialised s) : allInitialised t := by
  obtain ⟨hzero, hs⟩ := hs
  refine ⟨h.params ▸ hzero, fun hloaded => ?_⟩
  cases h
  case completed i hnext hf hi hc =>
    obtain ⟨-, hrun⟩ := hnext
    obtain ⟨hregs, hindex⟩ := hs (run_ne_unloaded_of_active (.inl hrun))
    exact ⟨hc.registersHold hregs, hc.indexHolds hindex⟩
  case faulted op e hnext he h =>
    obtain ⟨-, hrun⟩ := hnext
    subst t
    exact hs (run_ne_unloaded_of_active (.inl hrun))
  case keyed x b env hrun h =>
    obtain ⟨hregs, hindex⟩ := hs (run_ne_unloaded_of_active (.inr ⟨x, hrun⟩))
    subst t
    exact ⟨registersHold_setV (s := s.setEnv env) hregs x b, hindex⟩
  case stopped env hactive h =>
    subst t
    exact hs (run_ne_unloaded_of_active hactive)
  case loaded rom env hfits h =>
    subst t
    rw [i_load hfits, cellAfterLoad_of_zeroed (p := (s.setEnv env).params) _ hzero]
    exact ⟨fun r => by rw [getV_load hfits, cellAfterLoad_of_zeroed (p := (s.setEnv env).params) _ hzero]; nofun, nofun⟩
  case ticked | presented | idle =>
    subst t
    exact hs hloaded

/-- A Cycle where every register holds a value raises no `UninitialisedRead`. -/
theorem CycleFault.code_ne_uninitialisedRead {op : Option Word} {e : Trap} (h : CycleFault s op e)
    (hregs : registersHold s) (hindex : s.i ≠ .uninitialised) : e.code ≠ .uninitialisedRead := by
  cases h with
  | fetch => nofun
  | executed hf he =>
    obtain ⟨-, -, huninit⟩ := he
    intro hcode
    rcases huninit hcode with ⟨x, hx⟩ | hi
    · exact hregs x hx
    · exact hindex hi

end Registers

/-- Settles O56: no step uninitialises a register, and a fault of a Cycle finds each of them holding a value. -/
theorem noUninitialisedReadWithZeroedRegisters : Obligations.NoUninitialisedReadWithZeroedRegisters := by
  intro s t hs h
  refine ⟨(step_effect h).allInitialised hs, fun r hfree hr => ?_⟩
  obtain ⟨⟨-, hrun⟩, hcycle⟩ := runningCycle_of_enters_faulted hfree h hr
  obtain ⟨-, hs⟩ := hs
  obtain ⟨hregs, hindex⟩ := hs (run_ne_unloaded_of_active (.inl hrun))
  rcases runningCycle_effect hcycle with ⟨-, i, -, hc⟩ | ⟨op, e, he, rfl⟩
  · exact absurd hr (hc.faultFree (s := s.dequeued) hfree r)
  · cases hr
    exact he.code_ne_uninitialisedRead hregs hindex

/-! ### Load -/

/-- Settles O44: the fields of a Load that succeeds, byte by byte for memory, and the report of one that does not. -/
theorem loadResetsTheCore : Obligations.LoadResetsTheCore := by
  intro rom readable s hk
  have hstep : step s = .next (load rom readable s.dequeued) := step_of_nextKind hk
  constructor
  case left =>
    rintro rfl hfits
    have hload := load_of_fits (s := s.dequeued) hfits
    have hbyte (a : Nat) := byteAt_loadedMemory s.params rom hfits a
    refine ⟨_, hstep, ?_⟩
    rw [hload]
    refine ⟨fun a ha => ?font, fun j hj => ?rom, fun a ha hrom => ?zeros, rfl, rfl, rfl, rfl, rfl, fun hz => ?zeroed,
      fun hz => ?marked, rfl, rfl, rfl, rfl⟩
    case font => exact (hbyte a).trans ((dif_neg (by omega)).trans (dif_pos ha))
    case rom =>
      refine (hbyte _).trans ((dif_pos (by omega)).trans ?_)
      simp
    case zeros => exact (hbyte a).trans ((dif_neg hrom).trans (dif_neg (by omega)))
    case zeroed =>
      have hcell (w : Nat) := cellAfterLoad_of_zeroed (p := s.dequeued.params) w hz
      exact ⟨fun r => by rw [← hload, getV_load hfits, hcell], hcell 16⟩
    case marked =>
      have hcell (w : Nat) := cellAfterLoad_of_not_zeroed (p := s.dequeued.params) w hz
      exact ⟨fun r => by rw [← hload, getV_load hfits, hcell], hcell 16⟩
  case right =>
    intro herr
    rw [load_of_error herr] at hstep
    exact ⟨_, hstep, unchangedBut_setEnv s _, rfl⟩

/-- Settles O58: a Load that succeeds keeps of the state before it only the frame, `dirty`, the parameters and the
environment's side, and power-on fixes the first two. -/
theorem powerOnContentsAreNotObserved : Obligations.PowerOnContentsAreNotObserved := by
  rintro s s' t t' rom ⟨-, hfb, hdirty⟩ ⟨-, hfb', hdirty'⟩ hparams henv hk hfits h h'
  have hk' : nextKind s' = .load rom true := by rw [← hk, nextKind, nextKind, henv]
  rw [step_of_nextKind hk, perform, load_of_fits hfits] at h
  rw [step_of_nextKind hk', perform, load_of_fits hfits] at h'
  cases h
  cases h'
  simp [State.dequeued, hfb, hfb', hdirty, hdirty', hparams, henv]

/-- Bytes that say what unlisted addresses say anyway add nothing to an empty memory. -/
theorem putAll_unlisted (bs : List Byte) : ∀ a : Nat, (∀ j, (h : j < bs.length) → bs[j] = Memory.unlisted (a + j)) →
    Memory.putAll a bs [] = [] := by
  induction bs with
  | nil => intro a _; rfl
  | cons b bs ih =>
    intro a hbs
    have hb : b = Memory.unlisted a := hbs 0 (by simp)
    have hrest : Memory.putAll (a + 1) bs [] = [] := ih _ fun j hj => by
      rw [Nat.add_right_comm]; exact hbs (j + 1) (by simpa using hj)
    rw [Memory.putAll, hrest, Memory.put, Memory.cellThen, if_pos hb]

/-- With the default font and no ROM, Load's memory lists nothing. -/
theorem loadedMemory_ofReset : loadedMemory Params.ofReset [] = [] := by
  refine putAll_unlisted defaultFont.toList 0 fun j hj => ?_
  have hj : j < 80 := by simpa using hj
  rw [Nat.zero_add, Memory.unlisted, dif_pos hj, Vector.getElem_toList]

/-- Settles O60: with the reset's parameters Load's memory lists nothing, and power-on fixes the frame and `dirty`. -/
theorem resetIsLoadOfTheEmptyRom : Obligations.ResetIsLoadOfTheEmptyRom := by
  refine ⟨fun s ⟨_, hfb, hdirty⟩ hparams henv => ?_, rfl, rfl, rfl, rfl, rfl, rfl⟩
  have hparams : s.params = Params.ofReset := hparams
  rw [load_of_fits (by simp), hfb, hdirty, hparams, henv, loadedMemory_ofReset]
  rfl

end Sys2Proof.Machine
end

section
/-! SUPPORT. SYS and the faults of DRW, the instructions that ask the environment, and the key wait (40_execution_cycle.md R81,
42_control_flow.md R99, 43_register_alu.md R113, 45_keys_timers.md), with the obligations on them. -/

namespace Sys2Proof.Machine

/-! ### SYS and the faults of DRW -/

/-- Settles O12: the meaning of SYS is the fault of an illegal word. -/
theorem nativeCallRaisesDecodeError : Obligations.NativeCallRaisesDecodeError := by
  intro nnn s hcls hret
  have hw := isWordOf_sys hcls hret
  exact ⟨hw, raises_of_error (e := decodeTrap) hw rfl⟩

/-- DRW with a height, by its rule (41_display.md R90). -/
theorem exec_drw_of_height (x y : RegIx) {n : Nibble} (hn : n ≠ 0#4) (s : State) : exec (.drw x y n) s =
    conclude (.drw x y n) s (readV x s >>= fun a => readV y s >>= fun b => readI s >>= fun base =>
      readBytes s.mem base.toNat n.toNat >>= fun rows => pure (s.afterDrawing (drawSprite s.fb a b rows))) := by
  show execDrw x y n s = _
  rw [execDrw, if_neg hn]

/-- Settles O10: V[X], V[Y], `I` and the sprite's bytes are read in this order, and the first that cannot be is the fault. -/
theorem drawSpriteFaults : Obligations.DrawSpriteFaults := by
  intro x y n s
  have hw (hn : n ≠ 0#4) := isWordOf_drw (x := x) (y := y) hn
  have h (hn : n ≠ 0#4) := exec_drw_of_height x y hn s
  refine ⟨hw, ?illegal, fun hn => raises_of_readV (hw hn) (h hn),
    fun a hn ha => raises_of_readV (hw hn) (exec_of_readV (h hn) ha), fun a b hn ha hb hi => ?indexFaults,
    fun a b base r ha hb hi hr hacc hr' => ?accessFaults⟩
  case illegal =>
    have hop : opXY 0xD000 x y = wordXYN 0xD x y 0x0 := opXY_eq_wordXYN 0xD x y 0x0
    rw [hop, decodeWord_DXY0]
  case indexFaults =>
    exact raises_of_bind_error (hw hn) (exec_of_readV (exec_of_readV (h hn) ha) hb) (readI_of_uninitialised hi)
  case accessFaults =>
    have hn : n ≠ 0#4 := by rintro rfl; simp at hr
    have hindex := exec_of_ok (r := readI s) (exec_of_readV (exec_of_readV (h hn) ha) hb) (readI_of_holds hi)
    exact raises_of_bind_error (hw hn) hindex (readBytes_error s.mem _ base.toNat r hr hacc hr')

/-! ### RND -/

/-- RND, by its rule (43_register_alu.md R113). -/
theorem exec_rnd (x : RegIx) (nn : Byte) (s : State) : exec (.rnd x nn) s =
    .next ((askRandomByte s).2.setV x ((askRandomByte s).1 &&& nn)).advance := rfl

/-- An answer `b` of the environment, with `e` its side after it, goes to `V[X]` under the mask. -/
theorem writes_randomByte {x : RegIx} {nn b : Byte} {s : State} {e : Env} (h : askRandomByte s = (b, s.setEnv e)) :
    ∃ t, exec (.rnd x nn) s = .next t ∧ t.getV x = .holds (b &&& nn) ∧ regsUnchangedBut [x] s t ∧
      t.pc = s.pc + 2 ∧ t.env = e ∧ unchangedBut [.regs, .pc, .env] s t := by
  have hx := exec_rnd x nn s
  rw [h] at hx
  refine ⟨_, hx, State.getV_setV_self _ x _, fun r hr => ?others, rfl, rfl, unchangedBut_mono (by decide)
    (unchangedBut_trans (unchangedBut_setEnv s e) (unchangedBut_trans (unchangedBut_setV _ x _) (unchangedBut_advance _)))⟩
  case others => exact State.getV_setV_of_ne _ (fun e => hr (List.mem_singleton.2 e)) _

/-- Settles O27: the answer is the next one listed, or the free value. -/
theorem randomByteUnderMask : Obligations.RandomByteUnderMask := fun x nn _ =>
  ⟨isWordOf_rnd x nn, fun _ _ h => writes_randomByte (askRandomByte_cons h),
    fun h => writes_randomByte (askRandomByte_nil h)⟩

/-! ### SKP and SKNP -/

/-- SKP, by its rule (45_keys_timers.md R121). -/
theorem exec_skp (x : RegIx) (s : State) : exec (.skp x) s =
    conclude (.skp x) s (readV x s >>= fun b => keyOf b >>= fun k =>
      pure ((askKeyPressed k s).2.skipIf (askKeyPressed k s).1)) := rfl

/-- SKNP, by its rule (45_keys_timers.md R122). -/
theorem exec_sknp (x : RegIx) (s : State) : exec (.sknp x) s =
    conclude (.sknp x) s (readV x s >>= fun b => keyOf b >>= fun k =>
      pure ((askKeyPressed k s).2.skipIf (!(askKeyPressed k s).1))) := rfl

section Keys

variable {x : RegIx} {s : State} {b : Byte} {k : Key} {p : Bool} {e : Env}

/-- Both skips by an answer `p` of the environment, with `e` its side after it. -/
theorem skips_of_keyPressed (hb : s.getV x = .holds b) (hk : keyOf b = .ok k)
    (h : askKeyPressed k s = (p, s.setEnv e)) :
    (∃ t, exec (.skp x) s = .next t ∧ t.pc = (if p then s.pc + 4 else s.pc + 2) ∧ t.env = e ∧
      unchangedBut [.pc, .env] s t) ∧
    (∃ t, exec (.sknp x) s = .next t ∧ t.pc = (if p then s.pc + 2 else s.pc + 4) ∧ t.env = e ∧
      unchangedBut [.pc, .env] s t) := by
  have hskp := exec_of_ok (exec_of_readV (exec_skp x s) hb) hk
  have hsknp := exec_of_ok (exec_of_readV (exec_sknp x s) hb) hk
  have hframe (c : Bool) : unchangedBut [.pc, .env] s ((s.setEnv e).skipIf c) :=
    unchangedBut_mono (by decide) (unchangedBut_trans (unchangedBut_setEnv s e) (unchangedBut_skipIf _ c))
  rw [h] at hskp hsknp
  refine ⟨⟨_, hskp, rfl, rfl, hframe p⟩, _, hsknp, ?_, rfl, hframe (!p)⟩
  cases p <;> rfl

theorem keyOf_error (hb : 15 < b.toNat) : keyOf b = .error { code := .keyIndexOutOfRange, info := .keyValue b } :=
  if_pos hb

end Keys

/-- Settles O36: the register is read, its value is a key or the fault, and the environment's answer decides. -/
theorem keySkips : Obligations.KeySkips := by
  intro x s
  have hskp := exec_skp x s
  have hsknp := exec_sknp x s
  refine ⟨isWordOf_skp x, isWordOf_sknp x, fun b p ps hb hle hp => ?listed, fun b k hb hbk hp => ?free,
    fun hx => ?registerFaults, fun b hb hgt => ?keyFaults⟩
  case listed => exact skips_of_keyPressed hb (keyOf_eq_ok_iff.2 ⟨hle, rfl⟩) (askKeyPressed_cons _ hp)
  case free =>
    have hk : keyOf b = .ok k := keyOf_eq_ok_iff.2 (by bv_omega)
    exact skips_of_keyPressed hb hk (askKeyPressed_nil k hp)
  case registerFaults => exact ⟨raises_of_readV (isWordOf_skp x) hskp hx, raises_of_readV (isWordOf_sknp x) hsknp hx⟩
  case keyFaults =>
    exact ⟨raises_of_bind_error (isWordOf_skp x) (exec_of_readV hskp hb) (keyOf_error hgt),
      raises_of_bind_error (isWordOf_sknp x) (exec_of_readV hsknp hb) (keyOf_error hgt)⟩

/-! ### The key wait -/

/-- LD Vx, K, by its rule (45_keys_timers.md R126). -/
theorem exec_ldVxK (x : RegIx) (s : State) : exec (.ldVxK x) s = .next (s.setRun (.waitKey x)) := rfl

/-- Settles O39: the run state is all that is written. -/
theorem keyWaitBegins : Obligations.KeyWaitBegins := fun x s =>
  ⟨isWordOf_ldVxK x, _, exec_ldVxK x s, rfl, unchangedBut_setRun s _⟩

/-- In the key wait a Cycle is one poll (40_execution_cycle.md R81). -/
theorem step_of_waitKey {x : RegIx} {s : State} (hk : nextKind s = .cycle) (hrun : s.run = .waitKey x) :
    step s = .next (waitCycle x s.dequeued) := by
  rw [step_of_nextKind hk, perform, cycle, State.dequeued_run, hrun]

/-- `t` is `s` with its key wait for `V[x]` ended by the key `k`. -/
def KeyedBy (x : RegIx) (k : Key) (s t : State) : Prop :=
  t.getV x = .holds (BitVec.ofNat 8 k.toNat) ∧ regsUnchangedBut [x] s t ∧ t.pc = s.pc + 2 ∧ t.run = .running ∧
    unchangedBut [.regs, .pc, .run, .env] s t

section Poll

variable {x : RegIx} {s : State} {k : Key} {e : Env}

/-- A poll answered with no key leaves everything but the environment's side. -/
theorem waitCycle_of_none (h : askPollKey s.dequeued = (none, s.setEnv e)) : waitCycle x s.dequeued = s.setEnv e := by
  rw [waitCycle, h]

/-- A poll answered with a key ends the wait (40_execution_cycle.md R81). -/
theorem waitCycle_of_some (h : askPollKey s.dequeued = (some k, s.setEnv e)) :
    waitCycle x s.dequeued = (((s.setEnv e).setV x (BitVec.ofNat 8 k.toNat)).advance).setRun .running := by
  rw [waitCycle, h, BitVec.ofNat_toNat]

theorem keyedBy_of_poll (h : askPollKey s.dequeued = (some k, s.setEnv e)) : KeyedBy x k s (waitCycle x s.dequeued) := by
  rw [waitCycle_of_some h]
  refine ⟨State.getV_setV_self _ x _, fun r hr => ?others, rfl, rfl, unchangedBut_mono (by decide)
    (unchangedBut_trans (unchangedBut_setEnv s e) (unchangedBut_trans (unchangedBut_setV _ x _)
      (unchangedBut_trans (unchangedBut_advance _) (unchangedBut_setRun _ _))))⟩
  case others => exact State.getV_setV_of_ne _ (fun e => hr (List.mem_singleton.2 e)) _

theorem env_of_poll {ok : Option Key} (h : askPollKey s.dequeued = (ok, s.setEnv e)) :
    (waitCycle x s.dequeued).env = e := by
  cases ok with
  | none => rw [waitCycle_of_none h]; rfl
  | some k => rw [waitCycle_of_some h]; rfl

end Poll

/-- Settles O40: the poll's answer is the next one listed, or the free value; with no key the state is kept, with one the wait
ends. -/
theorem keyWaitPolls : Obligations.KeyWaitPolls := by
  intro x s hk hrun
  have hstep := step_of_waitKey hk hrun
  refine ⟨fun ks hks => ?noKey, fun k ks hks => ?key, fun hks => ?free⟩
  case noKey =>
    have hpoll := askPollKey_cons (s := s.dequeued) hks
    exact ⟨_, hstep, waitCycle_of_none hpoll ▸ unchangedBut_setEnv s _, env_of_poll hpoll⟩
  case key =>
    have hpoll := askPollKey_cons (s := s.dequeued) hks
    obtain ⟨hget, hothers, hpc, hrun', hframe⟩ := keyedBy_of_poll (x := x) hpoll
    exact ⟨_, hstep, hget, hothers, hpc, hrun', hframe, env_of_poll hpoll⟩
  case free =>
    have hpoll := askPollKey_nil (s := s.dequeued) hks
    refine ⟨_, hstep, env_of_poll hpoll, fun hnone => ?_, fun k hsome => ?_⟩
    · rw [show Config.pollKey s.dequeued.env.asked = none from hnone] at hpoll
      exact waitCycle_of_none hpoll ▸ unchangedBut_setEnv s _
    · rw [show Config.pollKey s.dequeued.env.asked = some k from hsome] at hpoll
      exact keyedBy_of_poll hpoll

end Sys2Proof.Machine
end

section
/-! SUPPORT. Two instructions in a row: CALL and RET, the block store and what reads its block back, and a sprite drawn twice,
with the obligations on them. -/

namespace Sys2Proof.Machine

/-! ### CALL and RET -/

/-- Settles O18: RET pops what CALL pushed, which leaves the stack it was pushed on. -/
theorem callThenReturnComesBack : Obligations.CallThenReturnComesBack := by
  intro nnn s t hroom ht
  rw [exec_call nnn hroom] at ht
  cases ht
  refine ⟨_, exec_ret rfl, rfl, fun p hp => ?_⟩
  cases p
  case pc => exact absurd List.mem_cons_self hp
  all_goals simp [Part.same]

/-! ### The block store and what reads it back -/

/-- An instruction that leaves a machine without fault as it was in this took none, so it completed. -/
theorem completes_of_run_eq {i : Instr} {s t : State} (hs : faultFree s) (h : exec i s = .next t)
    (hrun : t.run = s.run) : Completes s t i := by
  refine (exec_cases h).resolve_right ?_
  rintro ⟨e, -, rfl⟩
  exact hs _ hrun.symm

section Stored

variable {x : RegIx} {s t : State} {base : Word}

/-- After a completed block store each register of the block stands at its address (44_index_memory.md R118). -/
theorem getV_eq_stored (hwf : s.mem.wf) (h : Completes s t (.ldMemVx x)) (hi : s.i = .holds base) {r : RegIx}
    (hr : r.toNat ≤ x.toNat) : s.getV r = .holds (Memory.byteAt t.mem (base.toNat + r.toNat)) := by
  obtain ⟨base', vs, m, hi', hvs, hwrite, rfl⟩ := h
  cases hi.symm.trans hi'
  have hr : r.toNat < vs.length := by rw [length_of_readVs hvs]; omega
  exact (getV_of_readVs hvs hr).trans (congrArg _ (byteAt_of_writeBytes hwf hwrite hr).symm)

/-- A completed block store went to accessible addresses. -/
theorem accessible_of_stored (hwf : s.mem.wf) (h : Completes s t (.ldMemVx x)) (hi : s.i = .holds base) :
    ∀ k < blockSize x, dataAccessible (base.toNat + k) := by
  obtain ⟨base', vs, m, hi', hvs, hwrite, rfl⟩ := h
  cases hi.symm.trans hi'
  obtain ⟨hacc, -, -⟩ := writeBytes_spec vs s.mem m base.toNat hwf hwrite
  exact fun k hk => hacc k (length_of_readVs hvs ▸ hk)

end Stored

/-- Settles O34: the load reads the block that the store wrote, at the same addresses. -/
theorem storedBlockLoadsBack : Obligations.StoredBlockLoadsBack := by
  intro x s t u v hwf h hrun hfree hmem hui hv
  have hc := completes_of_run_eq hfree h hrun
  have hti : t.i = s.i := hc.frame .i (by simp [writtenParts])
  obtain ⟨base, -, -, hi, -⟩ := id hc
  obtain ⟨bs, hbs⟩ := readBytes_ok (m := u.mem) (accessible_of_stored hwf hc hi)
  have hindex := exec_of_ok (exec_ldVxMem x u) (readI_of_holds (hui.trans (hti.trans hi)))
  have hload : exec (.ldVxMem x) u = .next (u.setVs 0 bs).advance := exec_of_ok hindex hbs
  cases hload.symm.trans hv
  refine ⟨hti, (State.setVs_i bs u 0).trans (hui.trans hti), fun r hr => ?_⟩
  have hget := getV_setVs_of_readBytes hbs r
  rw [if_pos hr, hmem, ← getV_eq_stored hwf hc hi hr] at hget
  exact hget

/-- Settles O35: the two bytes fetched are those of two registers of the block stored. -/
theorem storedCodeIsFetched : Obligations.StoredCodeIsFetched := by
  intro x s t u base r hi lo hwf hfree h hrun hbase hr hhi hlo hmem hpc hf
  have hc := completes_of_run_eq hfree h hrun
  have hsucc : (r + 1).toNat = r.toNat + 1 := by bv_omega
  have hfirst := getV_eq_stored hwf hc hbase (r := r) (by omega)
  have hsecond := getV_eq_stored hwf hc hbase (r := r + 1) (by omega)
  cases hhi.symm.trans hfirst
  cases hlo.symm.trans hsecond
  refine ⟨_, fetchWord_eq_ok_iff.2 ⟨hf, rfl⟩, ?_⟩
  rw [toNat_wordAt, hmem, hpc, hsucc, Nat.add_assoc]

/-! ### A sprite drawn twice -/

section Twice

variable {m : Memory} {base n : Nat} {rows : List Byte} (f : Frame) (x y : Byte)

/-- The second draw toggles back what the first did (41_display.md R90). -/
theorem drawSprite_twice (h : readBytes m base n = .ok rows) (hn : n ≤ 32) :
    (drawSprite (drawSprite f x y rows).fb x y rows).fb = f := by
  apply Frame.ext_pixel
  intro px py
  by_cases hc : spriteCovers m base n (x.toNat % 64) (y.toNat % 32) px py
  · rw [pixel_drawSprite_of_covers _ x y h hn hc, pixel_drawSprite_of_covers f x y h hn hc, Bool.not_not]
  · rw [pixel_drawSprite_of_not_covers _ x y h hn hc, pixel_drawSprite_of_not_covers f x y h hn hc]

/-- The second draw collides where the first turned a pixel on (41_display.md R87, R90). -/
theorem collision_drawSprite_twice (h : readBytes m base n = .ok rows) (hn : n ≤ 32) :
    (drawSprite (drawSprite f x y rows).fb x y rows).collision = true ↔
      ∃ px py, spriteCovers m base n (x.toNat % 64) (y.toNat % 32) px py ∧ f.pixel px py = false := by
  rw [collision_drawSprite _ x y h hn]
  refine exists_congr fun px => exists_congr fun py => and_congr_right fun hc => ?_
  rw [pixel_drawSprite_of_covers f x y h hn hc, Bool.not_eq_true']

end Twice

/-- Settles O59: both draws read the same rows, so the second undoes the first. -/
theorem doubleDrawRestoresPixels : Obligations.DoubleDrawRestoresPixels := by
  intro x y n s t u v a b base hn hx hy hi hacc ht hfb hmem hui hux huy hv
  obtain ⟨rows, hrows⟩ := readBytes_ok (m := s.mem) hacc
  have hlen : n.toNat ≤ 32 := by omega
  cases (exec_drw hn hx hy hi hrows).symm.trans ht
  have hrows' : readBytes u.mem base.toNat n.toNat = .ok rows := by rw [hmem]; exact hrows
  cases (exec_drw hn hux huy (hui.trans hi) hrows').symm.trans hv
  have hfb : u.fb = (drawSprite s.fb a b rows).fb := hfb
  rw [State.afterDrawing_fb, getV_vf_afterDrawing, hfb, ← collision_drawSprite_twice s.fb a b hrows hlen]
  refine ⟨drawSprite_twice s.fb a b hrows hlen, ?_⟩
  cases (drawSprite (drawSprite s.fb a b rows).fb a b rows).collision <;> simp

end Sys2Proof.Machine
end

section
/-! SUPPORT. No instruction reads the sound timer or `dirty` (10_state.md R30, R34): two executions from states that differ in
nothing else run side by side, read by read. -/

namespace Sys2Proof.Machine

/-- The two states differ in the sound timer and `dirty` at most. -/
def alikeButUnread (t u : State) : Prop := (u.setSt t.st).setDirty t.dirty = t

/-- Two ends of a pseudocode: states that are alike, or the same fault. -/
def endAlike : Except Trap State → Except Trap State → Prop
  | .ok t, .ok u => alikeButUnread t u
  | .error e, .error e' => e = e'
  | .ok _, .error _ | .error _, .ok _ => False

section Unread

variable {s : State} {b : Byte} {d : Bool}

/-- The same operation before two continuations that end alike. -/
theorem endAlike_bind {α : Type} {r : Except Trap α} {f g : α → Except Trap State} (h : ∀ a, endAlike (f a) (g a)) :
    endAlike (r >>= f) (r >>= g) := by
  cases r with
  | error e => rfl
  | ok a => exact h a

theorem setVs_setSt_setDirty (bs : List Byte) : ∀ (s : State) (k : Nat),
    ((s.setSt b).setDirty d).setVs k bs = ((s.setVs k bs).setSt b).setDirty d := by
  induction bs with
  | nil => exact fun _ _ => rfl
  | cons v vs ih => exact fun s k => ih (s.setV _ v) (k + 1)

theorem readVs_setSt_setDirty (s : State) : ∀ n k : Nat, readVs ((s.setSt b).setDirty d) k n = readVs s k n := by
  intro n
  induction n with
  | zero => exact fun _ => rfl
  | succ n ih => intro k; rw [readVs, readVs, ih]; rfl

theorem askRandomByte_setSt_setDirty (s : State) : askRandomByte ((s.setSt b).setDirty d) =
    ((askRandomByte s).1, ((askRandomByte s).2.setSt b).setDirty d) := by
  cases h : s.env.randomBytes with
  | nil => rw [askRandomByte_nil h, askRandomByte_nil (s := (s.setSt b).setDirty d) h]; rfl
  | cons v vs => rw [askRandomByte_cons h, askRandomByte_cons (s := (s.setSt b).setDirty d) h]; rfl

theorem askKeyPressed_setSt_setDirty (k : Key) (s : State) : askKeyPressed k ((s.setSt b).setDirty d) =
    ((askKeyPressed k s).1, ((askKeyPressed k s).2.setSt b).setDirty d) := by
  cases h : s.env.keyAnswers with
  | nil => rw [askKeyPressed_nil k h, askKeyPressed_nil (s := (s.setSt b).setDirty d) k h]; rfl
  | cons p ps => rw [askKeyPressed_cons k h, askKeyPressed_cons (s := (s.setSt b).setDirty d) k h]; rfl

/-- Each instruction's pseudocode makes the same reads in both states, and ends alike. -/
theorem exec_endAlike (i : Instr) (s : State) (b : Byte) (d : Bool) : ∃ r r', exec i s = conclude i s r ∧
    exec i ((s.setSt b).setDirty d) = conclude i ((s.setSt b).setDirty d) r' ∧ endAlike r r' := by
  cases i
  case cls | jp | ldVxNn | ldINnn | ldVxDt | ldVxK => exact ⟨.ok _, .ok _, rfl, rfl, rfl⟩
  case sys => exact ⟨.error _, .error _, rfl, rfl, rfl⟩
  case ret =>
    rcases List.eq_nil_or_concat s.stack with h | ⟨as, a, h⟩
    · exact ⟨_, _, exec_ret_of_empty h, exec_ret_of_empty (s := (s.setSt b).setDirty d) h, rfl⟩
    · rw [List.concat_eq_append] at h
      exact ⟨.ok _, .ok _, exec_ret h, exec_ret (s := (s.setSt b).setDirty d) h, rfl⟩
  case call nnn =>
    rcases Nat.lt_or_ge s.stack.length 48 with h | h
    · exact ⟨.ok _, .ok _, exec_call nnn h, exec_call (s := (s.setSt b).setDirty d) nnn h, rfl⟩
    · exact ⟨_, _, exec_call_of_full nnn h, exec_call_of_full (s := (s.setSt b).setDirty d) nnn h, rfl⟩
  case seVxNn | sneVxNn | addVxNn | ldVxVy | shr | shl | jpV0 | ldDtVx | ldStVx | ldFVx =>
    refine ⟨_, _, rfl, rfl, endAlike_bind fun _ => ?_⟩
    rfl
  case seVxVy | sneVxVy | orVxVy | andVxVy | xorVxVy | addVxVy | sub | subn | addIVx =>
    refine ⟨_, _, rfl, rfl, endAlike_bind fun _ => endAlike_bind fun _ => ?_⟩
    rfl
  case ldBVx =>
    refine ⟨_, _, rfl, rfl, endAlike_bind fun _ => endAlike_bind fun _ => endAlike_bind fun _ => ?_⟩
    rfl
  case ldMemVx =>
    refine ⟨_, _, rfl, rfl, endAlike_bind fun _ => ?_⟩
    rw [readVs_setSt_setDirty]
    refine endAlike_bind fun _ => endAlike_bind fun _ => ?_
    rfl
  case ldVxMem =>
    refine ⟨_, _, rfl, rfl, endAlike_bind fun _ => endAlike_bind fun _ => ?_⟩
    rw [setVs_setSt_setDirty]
    rfl
  case rnd =>
    refine ⟨.ok _, .ok _, rfl, rfl, ?_⟩
    rw [askRandomByte_setSt_setDirty]
    rfl
  case skp | sknp =>
    refine ⟨_, _, rfl, rfl, endAlike_bind fun _ => endAlike_bind fun k => ?_⟩
    rw [askKeyPressed_setSt_setDirty]
    generalize askKeyPressed k s = answer
    rfl
  case drw x y n =>
    refine ⟨_, _, rfl, rfl, ?_⟩
    split
    · rfl
    · refine endAlike_bind fun _ => endAlike_bind fun _ => endAlike_bind fun _ => endAlike_bind fun _ => ?_
      rfl

end Unread

/-- Settles O52: the two ends are alike, and a fault taken reads neither part. -/
theorem soundTimerAndDirtyAreUnread : Obligations.SoundTimerAndDirtyAreUnread := by
  intro i s b d t ht
  obtain ⟨r, r', hr, hr', halike⟩ := exec_endAlike i s b d
  refine ⟨_, hr', ?_⟩
  cases hr.symm.trans ht
  cases r with
  | error e =>
    cases r' with
    | error e' => cases halike; rfl
    | ok u => exact halike.elim
  | ok t =>
    cases r' with
    | error e' => exact halike.elim
    | ok u => exact halike

end Sys2Proof.Machine
end
